-- ==== Sys2Proof/Word.lean ====
section
/-! DEFINITION. The fixed-width values of the FEM CORE (spec R6, R10, R70, R73). -/

namespace Sys2Proof

/-- A value of `ACC`, of a named register or of the port data path: `DW = 64` bits, read as signed
(R6, R12; log entry 1 for the width). -/
abbrev Word := BitVec 64

/-- The 8-bit character code held by the PRM field (R73). -/
abbrev Byte := BitVec 8

/-- One instruction word of the grid (R70). -/
abbrev CellWord := BitVec 16

/-- The index of a named register: 0 is A and 25 is Z (R14, R22). -/
abbrev RegIdx := Fin 26

/-- The number of an input or output port (R10, R50). -/
abbrev Port := Fin 10

end Sys2Proof
end

