-- ==== Sys2Proof/Config.lean ====
section
/-! DEFINITION. What an implementation of the FEM CORE fixes, and the free values: the parameters of
spec R6, R7 and R9 and the input draws of R132. -/

namespace Sys2Proof

/-- `NO_ARROW_POLICY` (R9): what happens when an opcode that takes its direction from the arrow
field has no arrow. This hardware takes `fault`; `halt` is the alternative a model may select. -/
inductive NoArrowPolicy where
  | fault
  | halt
  deriving DecidableEq, Repr

namespace Config

/-- `DW` in bits: this hardware takes 64 (R6, D6; log entry 1). -/
abbrev dataWidth : Nat := 64

/-- One less than `H_MAX`. The spec leaves `H_MAX` open (R7, D11): the constant has no body, so a
claim holds for every value of it (log entry 2). -/
opaque hMaxLessOne : Nat

/-- One less than `W_MAX` (R7, D11; log entry 2). -/
opaque wMaxLessOne : Nat

/-- `H_MAX`, the largest grid height the block accepts: any number from 1 up (R7). -/
def hMax : Nat := hMaxLessOne + 1

/-- `W_MAX`, the largest grid width the block accepts: any number from 1 up (R7). -/
def wMax : Nat := wMaxLessOne + 1

/-- `RW`, the width in bits of `IP.row` (R7). -/
def rowBits : Nat := max 1 (Nat.clog 2 hMax)

/-- `CW`, the width in bits of `IP.col` (R7). -/
def colBits : Nat := max 1 (Nat.clog 2 wMax)

/-- The answer of the environment to the `n`-th input request that no listed reply of the bound
environment covers: a free draw with no law (R132, U5; log entry 5). -/
opaque inputDraw : Nat → Word

end Config

end Sys2Proof
end

