-- ==== Sys2Proof/Syntax.lean ====
section
/-! DEFINITION. The instructions of the FEM CORE: directions (spec R26), arrows (R72) and the
thirteen opcodes (R75), every one carrying both of its other fields, so that no bit of a word is
lost even where the opcode ignores it (R70, R78). -/

namespace Sys2Proof

/-- The eight directions of movement (R26). -/
inductive Direction where
  | up
  | right
  | down
  | left
  | rightUp
  | rightDown
  | leftDown
  | leftUp
  deriving DecidableEq, Repr

/-- What the ARW field says (R72): an explicit direction, no arrow (code 15), or one of the seven
malformed codes 8 to 14, the `k`-th of which is code `8 + k` (R77). -/
inductive Arrow where
  | toward (d : Direction)
  | absent
  | malformed (k : Fin 7)
  deriving DecidableEq, Repr

/-- An instruction: one constructor per row of the opcode table (R75). `param` is the PRM character
as it stands in the word: whether it names a register or a digit is checked when the instruction
is executed, not when it is decoded (R73, R104). -/
inductive Instr where
  | blank (arrow : Arrow) (param : Byte)
  | load (arrow : Arrow) (param : Byte)
  | store (arrow : Arrow) (param : Byte)
  | input (arrow : Arrow) (param : Byte)
  | output (arrow : Arrow) (param : Byte)
  | add (arrow : Arrow) (param : Byte)
  | sub (arrow : Arrow) (param : Byte)
  | mul (arrow : Arrow) (param : Byte)
  | noop (arrow : Arrow) (param : Byte)
  | caseSign (arrow : Arrow) (param : Byte)
  | stop (arrow : Arrow) (param : Byte)
  | imm (arrow : Arrow) (param : Byte)
  | reverse (arrow : Arrow) (param : Byte)
  deriving DecidableEq, Repr

/-- The ARW field of an instruction. -/
def Instr.arrow : Instr → Arrow
  | .blank a _ => a
  | .load a _ => a
  | .store a _ => a
  | .input a _ => a
  | .output a _ => a
  | .add a _ => a
  | .sub a _ => a
  | .mul a _ => a
  | .noop a _ => a
  | .caseSign a _ => a
  | .stop a _ => a
  | .imm a _ => a
  | .reverse a _ => a

/-- The PRM field of an instruction. -/
def Instr.param : Instr → Byte
  | .blank _ p => p
  | .load _ p => p
  | .store _ p => p
  | .input _ p => p
  | .output _ p => p
  | .add _ p => p
  | .sub _ p => p
  | .mul _ p => p
  | .noop _ p => p
  | .caseSign _ p => p
  | .stop _ p => p
  | .imm _ p => p
  | .reverse _ p => p

end Sys2Proof
end

