-- ==== Sys2Proof/WellFormed.lean ====
section
/-! DEFINITION. Which instructions a well-formed grid may hold (spec R77, R252 (c)): the arrow code is
0 to 7 or 15, whatever the opcode. PRM is not part of the check: it is checked when the cell is
executed (R252, R104). The checks on a whole grid are in Machine/Reset.lean. -/

namespace Sys2Proof

/-- R77: the arrow codes 8 to 14 are illegal in every word. -/
def Arrow.wf : Arrow → Bool
  | .toward _ => true
  | .absent => true
  | .malformed _ => false

/-- R77 and R252 (c): an instruction a grid may hold. -/
def Instr.wf (i : Instr) : Bool := i.arrow.wf

end Sys2Proof
end

