-- ==== Sys2Proof/Decode.lean ====
section
/-! DEFINITION. Decoding and encoding of the 16-bit instruction word `OPC[15:12] ARW[11:8] PRM[7:0]`
(spec R70 to R77, R86). -/

namespace Sys2Proof

/-- Why a word is no instruction. -/
inductive DecodeError where
  /-- OPC is 0xD, 0xE or 0xF (R76): executing the cell raises INVALID_OPCODE (R203). -/
  | illegalOpcode (opc : BitVec 4)
  deriving DecidableEq, Repr

/-- `w[15:12]` (R70). -/
def opcField (w : CellWord) : BitVec 4 := w.extractLsb' 12 4

/-- `w[11:8]` (R70). -/
def arwField (w : CellWord) : BitVec 4 := w.extractLsb' 8 4

/-- `w[7:0]` (R70). -/
def prmField (w : CellWord) : Byte := w.extractLsb' 0 8

/-- The 3-bit code of a direction (R26). -/
def Direction.code : Direction → BitVec 3
  | .up => 0
  | .right => 1
  | .down => 2
  | .left => 3
  | .rightUp => 4
  | .rightDown => 5
  | .leftDown => 6
  | .leftUp => 7

/-- `ARROW` on the 4-bit ARW field (R72). -/
def Arrow.ofCode (a : BitVec 4) : Arrow :=
  match a.toNat with
  | 0 => .toward .up
  | 1 => .toward .right
  | 2 => .toward .down
  | 3 => .toward .left
  | 4 => .toward .rightUp
  | 5 => .toward .rightDown
  | 6 => .toward .leftDown
  | 7 => .toward .leftUp
  | 15 => .absent
  | n => .malformed (Fin.ofNat 7 (n - 8))

/-- Decoding of one word (R70 to R75): total, and refusing the illegal opcodes by name (R76). The
opcode does not depend on ARW or PRM (R71). -/
def decode (w : CellWord) : Except DecodeError Instr :=
  let a := Arrow.ofCode (arwField w)
  let p := prmField w
  match (opcField w).toNat with
  | 0 => .ok (.blank a p)
  | 1 => .ok (.load a p)
  | 2 => .ok (.store a p)
  | 3 => .ok (.input a p)
  | 4 => .ok (.output a p)
  | 5 => .ok (.add a p)
  | 6 => .ok (.sub a p)
  | 7 => .ok (.mul a p)
  | 8 => .ok (.noop a p)
  | 9 => .ok (.caseSign a p)
  | 10 => .ok (.stop a p)
  | 11 => .ok (.imm a p)
  | 12 => .ok (.reverse a p)
  | _ => .error (.illegalOpcode (opcField w))

/-- The instruction the decoder reads from the `nbits` bits `w` of an opcode-table row. Every
instruction is 16 bits long (R70, R79), so a longer one is none. -/
def decodeTableWord (nbits w : Nat) : Option Instr :=
  if nbits ≤ 16 then
    match decode (BitVec.ofNat 16 (w % 2 ^ nbits)) with
    | .ok i => some i
    | .error _ => none
  else none

/-- The ARW field of an arrow (R72). -/
def Arrow.code : Arrow → BitVec 4
  | .toward d => d.code.zeroExtend 4
  | .absent => 15
  | .malformed k => BitVec.ofNat 4 (8 + k.val)

/-- The OPC field of an instruction (R75). -/
def Instr.opcode : Instr → BitVec 4
  | .blank _ _ => 0x0
  | .load _ _ => 0x1
  | .store _ _ => 0x2
  | .input _ _ => 0x3
  | .output _ _ => 0x4
  | .add _ _ => 0x5
  | .sub _ _ => 0x6
  | .mul _ _ => 0x7
  | .noop _ _ => 0x8
  | .caseSign _ _ => 0x9
  | .stop _ _ => 0xA
  | .imm _ _ => 0xB
  | .reverse _ _ => 0xC

/-- The word of an instruction: `OPC`, `ARW`, `PRM` from the high end down (R70). -/
def encode (i : Instr) : CellWord := i.opcode ++ i.arrow.code ++ i.param

/-- The loader's Blank instruction, which fills short rows and unlisted cells (R80, R84, R86). -/
def paddingWord : CellWord := 0x0F20

end Sys2Proof
end

