-- ==== Sys2Proof/Machine/State.lean ====
section
/-! DEFINITION. The state of the FEM CORE (spec R20 to R35), the run's configuration (R32), the two
observations (R118, R135), the bound environment (R132, R133), the reasons a step can stop, and the
state after reset (R251). -/

namespace Sys2Proof.Machine

/-- RUNSTATE (R29). The code 3 is never produced, and the type has no value for it (U12). -/
inductive RunState where
  | running
  | halted
  | faulted
  deriving DecidableEq, Repr

/-- CAUSE (R30, R201). The codes 5 to 7 are never produced, and the type has no value for them (U12). -/
inductive Cause where
  | none
  | malformedProgram
  | invalidOpcode
  | invalidParam
  | noDirection
  deriving DecidableEq, Repr

/-- The pair (row, col) of a grid cell: the instruction pointer (R24; log entry 3 for the field
widths). -/
structure Pos where
  row : Nat
  col : Nat
  deriving DecidableEq, Repr

/-- A program: the height `H`, the width `W` and the rows of words the host supplies, row 0 first
(R51, R250 (1)). It is the block's only memory (R50; log entry 14). -/
structure Grid where
  height : Nat
  width : Nat
  rows : List (List CellWord)
  deriving DecidableEq, Repr

/-- A completed port request (R135). -/
inductive IoEvent where
  /-- `In(p, v)` -/
  | received (port : Port) (value : Word)
  /-- `Out(p, v)` -/
  | delivered (port : Port) (value : Word)
  deriving DecidableEq, Repr

/-- What the environment does with an input request (R132, R134, R136). -/
inductive InputReply where
  /-- It answers with this value. -/
  | answer (v : Word)
  /-- It never answers: the step never completes (R134). -/
  | never
  /-- It fails, which the spec gives no end state (R136, R218). -/
  | failure
  deriving DecidableEq, Repr

/-- What the environment does with an output request (R133, R134, R136). -/
inductive OutputReply where
  | accept
  | never
  | failure
  deriving DecidableEq, Repr

/-- The I/O environment bound at reset, as the replies it gives, the next one first (R32, R132, R133;
log entry 4). An input request beyond the listed replies is answered by a free draw, the
`draws`-th (log entry 5); an output request beyond them is accepted (log entry 6). -/
structure Env where
  inputs : List InputReply
  outputs : List OutputReply
  /-- How many input requests have been answered: the model's own counter for the free draws. -/
  draws : Nat
  deriving DecidableEq, Repr

/-- The state of the block. `acc` to `cause` are the architectural state of R20; `steps` and `trace`
are the observations of R118 and R135; `grid`, `policy` and `env` are the configuration of R32. -/
structure State where
  /-- ACC (R21). -/
  acc : Word
  /-- R[0..25], the named registers A to Z (R22). -/
  regs : Vector Word 26
  /-- IP (R24). -/
  ip : Pos
  /-- LASTDIR (R27). -/
  lastDir : Direction
  /-- REV (R28). -/
  rev : Bool
  /-- RUNSTATE (R29). -/
  runState : RunState
  /-- CAUSE (R30). -/
  cause : Cause
  /-- STEPS (R118). -/
  steps : Nat
  /-- The I/O trace, oldest request first (R135). -/
  trace : List IoEvent
  /-- GRID, H and W (R32, R51). -/
  grid : Grid
  /-- NO_ARROW_POLICY (R9, R32). -/
  policy : NoArrowPolicy
  /-- The bound I/O environment (R32, R132, R133). -/
  env : Env
  deriving DecidableEq, Repr

/-- Why the model stops with a fault. The four faults of the spec (R201) are no such stop: taking one
is a next state with RUNSTATE and CAUSE written (R200). -/
inductive Fault where
  /-- The step fetches where there is no cell (R52: FETCH is defined only in range). Raised by `step`;
  it happens only where no well-formed program has been supplied, or in a state no run reaches (R24).
  Safe: the spec gives no effect there. -/
  | fetchOutsideGrid
  deriving DecidableEq, Repr

/-- Why the model gives no meaning. -/
inductive Refusal where
  /-- An arm of `exec` without a meaning; no arm is one now. Safe. -/
  | notModelled (mnemonic : String)
  /-- The environment fails while a port request is pending: the run has no end state the spec
  describes (R136, R218, U14). Raised by INPUT and OUTPUT. Safe. -/
  | environmentFailed
  deriving DecidableEq, Repr

/-- The grid with nothing listed: no program has been supplied. -/
def Grid.empty : Grid := { height := 0, width := 0, rows := [] }

/-- The reset values of R251, with no program supplied yet and the environment bound to no listed
reply (log entries 5, 6 and 10). The host's whole reset command, with the load checks of R252, is
`hostReset` in Machine/Reset.lean. -/
def State.reset : State where
  acc := 0
  regs := Vector.replicate 26 0
  ip := { row := 0, col := 0 }
  lastDir := .right
  rev := false
  runState := .running
  cause := .none
  steps := 0
  trace := []
  grid := Grid.empty
  policy := .fault
  env := { inputs := [], outputs := [], draws := 0 }

end Sys2Proof.Machine
end

