-- ==== Sys2Proof/Machine/Flags.lean ====
section
/-! DEFINITION. Wrap-around and sign of results (spec R12, R13, R140, R144). The block has no
condition codes: no instruction sets a flag as a side effect, and REV is the only flag (R31). -/

namespace Sys2Proof.Machine

/-- `wrap` of R12 at a finite width of `dw` bits, on integers; `%` by a positive number is the
floormod of R13. -/
def wrapAt (dw : Nat) (v : Int) : Int := (v + 2 ^ (dw - 1)) % 2 ^ dw - 2 ^ (dw - 1)

/-- `wrap` at this hardware's `DW`, as the register value (R12, R140). -/
def wrap (v : Int) : Word := BitVec.ofInt Config.dataWidth (wrapAt Config.dataWidth v)

/-- The sign of a value (R144, R151). -/
inductive Sign where
  | negative
  | zero
  | positive
  deriving DecidableEq, Repr

/-- The sign of a value read as a signed `DW`-bit integer (R144). -/
def signOf (v : Word) : Sign :=
  if v.toInt < 0 then .negative else if v.toInt = 0 then .zero else .positive

end Sys2Proof.Machine
end

