-- ==== Sys2Proof/Machine/Operands.lean ====
section
/-! DEFINITION. The operand and direction forms of the instructions (spec R73, R74, R104 to R106). -/

namespace Sys2Proof.Machine

/-- `REGIDX` (R73): defined on the characters 'A' to 'Z', 0x41 to 0x5A. -/
def regIdx (p : Byte) : Option RegIdx :=
  if h : 0x41 ≤ p.toNat ∧ p.toNat ≤ 0x5A then some ⟨p.toNat - 0x41, by omega⟩ else none

/-- `DIGIT` (R73): defined on the characters '0' to '9', 0x30 to 0x39. -/
def digit (p : Byte) : Option (Fin 10) :=
  if h : 0x30 ≤ p.toNat ∧ p.toNat ≤ 0x39 then some ⟨p.toNat - 0x30, by omega⟩ else none

/-- The forms of the PRM operand (R74). -/
inductive ParamForm where
  | reg
  | digit
  | ignored
  deriving DecidableEq, Repr

/-- The PRM form of each opcode (R74). -/
def paramForm : Instr → ParamForm
  | .blank _ _ => .ignored
  | .load _ _ => .reg
  | .store _ _ => .reg
  | .input _ _ => .digit
  | .output _ _ => .digit
  | .add _ _ => .reg
  | .sub _ _ => .reg
  | .mul _ _ => .reg
  | .noop _ _ => .ignored
  | .caseSign _ _ => .ignored
  | .stop _ _ => .ignored
  | .imm _ _ => .digit
  | .reverse _ _ => .ignored

/-- `PRMOK` (R104). -/
def paramOk (i : Instr) : Bool :=
  match paramForm i with
  | .reg => (regIdx i.param).isSome
  | .digit => (digit i.param).isSome
  | .ignored => true

/-- The opcodes whose direction comes from the arrow field (R74, R106); the other three are CASE,
STOP and BLANK. -/
def usesArrow : Instr → Bool
  | .blank _ _ => false
  | .load _ _ => true
  | .store _ _ => true
  | .input _ _ => true
  | .output _ _ => true
  | .add _ _ => true
  | .sub _ _ => true
  | .mul _ _ => true
  | .noop _ _ => true
  | .caseSign _ _ => false
  | .stop _ _ => false
  | .imm _ _ => true
  | .reverse _ _ => true

/-- The outcome of an execute phase: the three of R105, and the fault of R106's third branch. -/
inductive ExecOutcome where
  | move (d : Direction)
  | noArrow
  | halt
  | malformed
  deriving DecidableEq, Repr

/-- `DIRREQ` (R106). -/
def dirReq : Arrow → ExecOutcome
  | .toward d => .move d
  | .absent => .noArrow
  | .malformed _ => .malformed

end Sys2Proof.Machine
end

