-- ==== Sys2Proof/Machine/Ops.lean ====
section
/-! DEFINITION. The named operations every instruction shares: register access (spec R21 to R28), the
grid (R51, R52), the endings of a step (R109 to R114, R118), taking a fault (R200) and the two port
requests (R132 to R135). A fault has no handler, no saved context and no return (R209), so taking
one is the whole of the mechanism. -/

namespace Sys2Proof.Machine

/-! ## Registers -/

/-- `ACC <- v` (R14, R21). -/
def State.setAcc (s : State) (v : Word) : State := { s with acc := v }

/-- `R[x]` (R14, R22). -/
def State.reg (s : State) (x : RegIdx) : Word := s.regs[x]

/-- `R[x] <- v` (R14, R22). -/
def State.setReg (s : State) (x : RegIdx) (v : Word) : State := { s with regs := s.regs.set x v }

/-- `REV <- NOT REV` (R28, R153). -/
def State.toggleRev (s : State) : State := { s with rev := !s.rev }

/-! ## The instruction grid -/

/-- The word of the cell at `p`, if `p` is a cell (R51, R52). -/
def Grid.cell (g : Grid) (p : Pos) : Option CellWord :=
  if p.row < g.height ∧ p.col < g.width then
    match g.rows[p.row]? with
    | some r => r[p.col]?
    | none => none
  else none

/-- The grid with the word `w` in the cell at `p`. No instruction does this (R62); it is how a
program is placed. -/
def Grid.setCell (g : Grid) (p : Pos) (w : CellWord) : Grid :=
  { g with rows := g.rows.modify p.row (fun r => r.set p.col w) }

/-- The canonical form of the grid (R51, R252 (b)): exactly `height` rows of exactly `width` cells. -/
def Grid.rectangular (g : Grid) : Bool :=
  g.rows.length == g.height && g.rows.all (fun r => r.length == g.width)

/-- `FETCH(IP.row, IP.col)` (R102). -/
def State.fetch (s : State) : Option CellWord := s.grid.cell s.ip

/-- The state with `w` in the cell the IP is on. Where the IP is on no cell (no program has been
supplied), the program becomes the one-cell grid that holds `w`, with the IP on it (log entry 10). -/
def State.placeWord (s : State) (w : CellWord) : State :=
  match s.fetch with
  | some _ => { s with grid := s.grid.setCell s.ip w }
  | none => { s with grid := { height := 1, width := 1, rows := [[w]] }, ip := { row := 0, col := 0 } }

/-- The state set running, as reset leaves a block whose program passes the load checks (R251). -/
def State.setRunning (s : State) : State :=
  match s.runState with
  | .running => s
  | .halted => { s with runState := .running, cause := .none }
  | .faulted => { s with runState := .running, cause := .none }

/-! ## Directions -/

/-- `opp(d)`, the antipodal direction (R108). -/
def opp : Direction → Direction
  | .up => .down
  | .right => .left
  | .down => .up
  | .left => .right
  | .rightUp => .leftDown
  | .rightDown => .leftUp
  | .leftDown => .rightUp
  | .leftUp => .rightDown

/-- The row component of `delta(d)` (R107). -/
def rowDelta : Direction → Int
  | .up => -1
  | .right => 0
  | .down => 1
  | .left => 0
  | .rightUp => -1
  | .rightDown => 1
  | .leftDown => 1
  | .leftUp => -1

/-- The column component of `delta(d)` (R107). -/
def colDelta : Direction → Int
  | .up => 0
  | .right => 1
  | .down => 0
  | .left => -1
  | .rightUp => 1
  | .rightDown => 1
  | .leftDown => -1
  | .leftUp => -1

/-- The direction resolver (R109): the requested direction, reversed when REV is set. -/
def resolve (rev : Bool) (d : Direction) : Direction := if rev then opp d else d

/-- One coordinate of the IP update: `(x + delta) floormod n` (R112, R13). -/
def wrapCoord (x : Nat) (delta : Int) (n : Nat) : Nat := ((x + delta) % n).toNat

/-- The toroidal IP update (R112). -/
def Grid.advance (g : Grid) (p : Pos) (d : Direction) : Pos where
  row := wrapCoord p.row (rowDelta d) g.height
  col := wrapCoord p.col (colDelta d) g.width

/-! ## Endings of a step -/

/-- `Move(d)`: resolve, record LASTDIR, move the IP; the step counts (R109, R112, R118). -/
def State.move (s : State) (d : Direction) : State :=
  let d' := resolve s.rev d
  { s with lastDir := d', ip := s.grid.advance s.ip d', steps := s.steps + 1 }

/-- `Halt`: RUNSTATE becomes HALTED and nothing else moves; the step counts (R113, R118). -/
def State.halt (s : State) : State := { s with runState := .halted, steps := s.steps + 1 }

/-- `raise Fault(c)`: RUNSTATE becomes FAULTED and CAUSE the cause, with no other write; the step does
not count (R200, R118). -/
def State.takeFault (s : State) (c : Cause) : State := { s with runState := .faulted, cause := c }

/-- `NOARROW()` (R114): a fault or a halt, as NO_ARROW_POLICY says. -/
def State.noArrow (s : State) : State :=
  match s.policy with
  | .fault => s.takeFault .noDirection
  | .halt => s.halt

/-- Steps 3 to 5 of the step cycle (R101), on the state the execute phase leaves: the outcome never
undoes that phase's writes (R116). -/
def State.conclude (s : State) : ExecOutcome → State
  | .move d => s.move d
  | .noArrow => s.noArrow
  | .halt => s.halt
  | .malformed => s.takeFault .malformedProgram

/-! ## Port requests -/

/-- What the environment does with the next input request (R132, R134; log entries 4 and 5). -/
def State.inputReply (s : State) : InputReply :=
  match s.env.inputs with
  | [] => .answer (Config.inputDraw s.env.draws)
  | r :: _ => r

/-- What the environment does with the next output request (R133, R134; log entries 4 and 6). -/
def State.outputReply (s : State) : OutputReply :=
  match s.env.outputs with
  | [] => .accept
  | r :: _ => r

/-- A completed `IN(p)` that answered `v` (R132, R135): recorded in the trace, its reply used up. -/
def State.recordInput (s : State) (p : Port) (v : Word) : State :=
  { s with
    trace := s.trace ++ [.received p v]
    env := { s.env with inputs := s.env.inputs.tail, draws := s.env.draws + 1 } }

/-- A completed `OUT(p, v)` (R133, R135): recorded in the trace, its reply used up. -/
def State.recordOutput (s : State) (p : Port) (v : Word) : State :=
  { s with
    trace := s.trace ++ [.delivered p v]
    env := { s.env with outputs := s.env.outputs.tail } }

/-! ## Param checks -/

/-- The param check of the REG form (R104): INVALID_PARAM before any state changes, else the
execute phase on the register index. -/
def withReg (p : Byte) (s : State) (run : RegIdx → Host.Outcome State Fault Refusal) :
    Host.Outcome State Fault Refusal :=
  match regIdx p with
  | some x => run x
  | none => .next (s.takeFault .invalidParam)

/-- The param check of the DIGIT form (R104): INVALID_PARAM before any state changes and before any
port request, else the execute phase on the digit. -/
def withDigit (p : Byte) (s : State) (run : Fin 10 → Host.Outcome State Fault Refusal) :
    Host.Outcome State Fault Refusal :=
  match digit p with
  | some k => run k
  | none => .next (s.takeFault .invalidParam)

end Sys2Proof.Machine
end

