-- ==== Sys2Proof/Machine/Arith.lean ====
section
/-! DEFINITION. ADD, SUB and MUL (spec file 43_arith.md): the exact integer result, wrapped (R140). -/

namespace Sys2Proof.Machine

/-- ADD X (R141): `ACC <- wrap(ACC + R[x])`, then the arrow. -/
def execAdd (a : Arrow) (p : Byte) (s : State) : Host.Outcome State Fault Refusal :=
  withReg p s fun x => .next ((s.setAcc (wrap (s.acc.toInt + (s.reg x).toInt))).conclude (dirReq a))

/-- SUB X (R142): `ACC <- wrap(ACC - R[x])`, then the arrow. -/
def execSub (a : Arrow) (p : Byte) (s : State) : Host.Outcome State Fault Refusal :=
  withReg p s fun x => .next ((s.setAcc (wrap (s.acc.toInt - (s.reg x).toInt))).conclude (dirReq a))

/-- MUL X (R143): `ACC <- wrap(ACC * R[x])`, then the arrow. -/
def execMul (a : Arrow) (p : Byte) (s : State) : Host.Outcome State Fault Refusal :=
  withReg p s fun x => .next ((s.setAcc (wrap (s.acc.toInt * (s.reg x).toInt))).conclude (dirReq a))

end Sys2Proof.Machine
end

