-- ==== Sys2Proof/Machine/Flow.lean ====
section
/-! DEFINITION. NOOP, CASE, STOP, REVERSE and BLANK (spec file 44_flow.md). None of them checks PRM
(R74), so PRM is no argument of their meanings; CASE, STOP and BLANK ignore the arrow too. -/

namespace Sys2Proof.Machine

/-- NOOP (R150): no state written, then the arrow. -/
def execNoop (a : Arrow) (s : State) : Host.Outcome State Fault Refusal :=
  .next (s.conclude (dirReq a))

/-- The direction CASE requests (R151). -/
def caseDirection : Sign → Direction
  | .negative => .up
  | .zero => .right
  | .positive => .down

/-- CASE (R151): a move by the sign of ACC. -/
def execCase (s : State) : Host.Outcome State Fault Refusal :=
  .next (s.conclude (.move (caseDirection (signOf s.acc))))

/-- STOP (R152): halt. -/
def execStop (s : State) : Host.Outcome State Fault Refusal :=
  .next (s.conclude .halt)

/-- REVERSE (R153): invert REV, then the arrow, which the new REV resolves (R111). -/
def execReverse (a : Arrow) (s : State) : Host.Outcome State Fault Refusal :=
  .next (s.toggleRev.conclude (dirReq a))

/-- BLANK (R154): a move in LASTDIR, which the resolver reverses like any other (R110). -/
def execBlank (s : State) : Host.Outcome State Fault Refusal :=
  .next (s.conclude (.move s.lastDir))

end Sys2Proof.Machine
end

