-- ==== Sys2Proof/Machine/Io.lean ====
section
/-! DEFINITION. INPUT and OUTPUT (spec file 42_io.md). -/

namespace Sys2Proof.Machine

/-- INPUT p (R130): one request to input port `p`; with its answer `v`, `ACC <- v` and then the
arrow. A request that is never answered leaves everything as it is (R134; log entry 7); a failing
environment ends what the spec describes (R136, R218; log entry 8). -/
def execInput (a : Arrow) (p : Byte) (s : State) : Host.Outcome State Fault Refusal :=
  withDigit p s fun n =>
    match s.inputReply with
    | .answer v => .next (((s.recordInput n v).setAcc v).conclude (dirReq a))
    | .never => .next s
    | .failure => .refused .environmentFailed

/-- OUTPUT p (R131): one request that delivers `ACC` to output port `p`, then the arrow. Waiting and
failing as for INPUT (R134, R136, R218; log entries 7 and 8). -/
def execOutput (a : Arrow) (p : Byte) (s : State) : Host.Outcome State Fault Refusal :=
  withDigit p s fun n =>
    match s.outputReply with
    | .accept => .next ((s.recordOutput n s.acc).conclude (dirReq a))
    | .never => .next s
    | .failure => .refused .environmentFailed

end Sys2Proof.Machine
end

