-- ==== Sys2Proof/Machine/Transfer.lean ====
section
/-! DEFINITION. LOAD, STORE and IMM (spec file 41_transfer.md). -/

namespace Sys2Proof.Machine

/-- LOAD X (R120): `ACC <- R[x]`, then the arrow. -/
def execLoad (a : Arrow) (p : Byte) (s : State) : Host.Outcome State Fault Refusal :=
  withReg p s fun x => .next ((s.setAcc (s.reg x)).conclude (dirReq a))

/-- STORE X (R121): `R[x] <- ACC`, then the arrow. -/
def execStore (a : Arrow) (p : Byte) (s : State) : Host.Outcome State Fault Refusal :=
  withReg p s fun x => .next ((s.setReg x s.acc).conclude (dirReq a))

/-- IMM k (R122): `ACC <- k`, then the arrow. -/
def execImm (a : Arrow) (p : Byte) (s : State) : Host.Outcome State Fault Refusal :=
  withDigit p s fun k => .next ((s.setAcc (BitVec.ofNat Config.dataWidth k.val)).conclude (dirReq a))

end Sys2Proof.Machine
end

