-- ==== Sys2Proof/Machine/Dispatch.lean ====
section
/-! DEFINITION. The per-opcode dispatcher: the param check, the execute phase and the ending of a step
(spec R101, steps 2b to 5) for each instruction. -/

namespace Sys2Proof.Machine

/-- The meaning of each instruction. -/
def exec (i : Instr) (s : State) : Host.Outcome State Fault Refusal :=
  match i with
  | .blank _ _ => Sys2Proof.Machine.execBlank s
  | .load a p => Sys2Proof.Machine.execLoad a p s
  | .store a p => Sys2Proof.Machine.execStore a p s
  | .input a p => Sys2Proof.Machine.execInput a p s
  | .output a p => Sys2Proof.Machine.execOutput a p s
  | .add a p => Sys2Proof.Machine.execAdd a p s
  | .sub a p => Sys2Proof.Machine.execSub a p s
  | .mul a p => Sys2Proof.Machine.execMul a p s
  | .noop a _ => Sys2Proof.Machine.execNoop a s
  | .caseSign _ _ => Sys2Proof.Machine.execCase s
  | .stop _ _ => Sys2Proof.Machine.execStop s
  | .imm a p => Sys2Proof.Machine.execImm a p s
  | .reverse a _ => Sys2Proof.Machine.execReverse a s

end Sys2Proof.Machine
end

