-- ==== Sys2Proof/Machine/Step.lean ====
section
/-! DEFINITION. One step of the block (spec R100, R101): the enable, the fetch, the opcode check, and
then the instruction. -/

namespace Sys2Proof.Machine

/-- One step. A block that is HALTED or FAULTED takes none, and nothing changes (R100, R256; log
entry 9). A running block fetches at the IP (R102); an illegal opcode raises INVALID_OPCODE before
any state changes (R103). -/
def step (s : State) : Host.Outcome State Fault Refusal :=
  match s.runState with
  | .halted => .next s
  | .faulted => .next s
  | .running =>
    match s.fetch with
    | none => .fault .fetchOutsideGrid
    | some w =>
      match decode w with
      | .error _ => .next (s.takeFault .invalidOpcode)
      | .ok i => exec i s

/-- The state with the instruction whose bits are `w` in the cell where the next step fetches, and the
block running, so that the next step is taken. Where the IP is on no cell, the program becomes the
one-cell grid that holds the word (log entry 10). -/
def State.withFetchWord (s : State) (nbits w : Nat) : State :=
  (s.placeWord (BitVec.ofNat 16 (w % 2 ^ nbits))).setRunning

end Sys2Proof.Machine
end

