-- ==== Sys2Proof/Machine/Reset.lean ====
section
/-! DEFINITION. The load checks and the reset command (spec R250 to R253). -/

namespace Sys2Proof.Machine

/-- R252 (c): every cell's ARW is in 0 to 7 or 15, whatever its opcode (R77). -/
def Grid.arrowsOk (g : Grid) : Bool :=
  g.rows.all fun r => r.all fun w => (Arrow.ofCode (arwField w)).wf

/-- The load checks of R252 with the size limits as arguments: (a) the size, (b) the grid is
rectangular, (c) no malformed arrow. OPC and PRM are not checked at load. -/
def Grid.loadOkWithin (hMax wMax : Nat) (g : Grid) : Bool :=
  decide (1 ≤ g.height) && decide (g.height ≤ hMax) && decide (1 ≤ g.width) && decide (g.width ≤ wMax)
    && g.rectangular && g.arrowsOk

/-- The load checks of R252 with this block's `H_MAX` and `W_MAX`. -/
def Grid.loadOk (g : Grid) : Bool := g.loadOkWithin Config.hMax Config.wMax

/-- The state after steps (1) to (3) of the reset command (R250): the program and the environment are
bound and every state item has its reset value (R251). NO_ARROW_POLICY and the model's own draw
counter are no part of what the command supplies, and stay (log entry 16). -/
def State.bound (s : State) (g : Grid) (inputs : List InputReply) (outputs : List OutputReply) : State :=
  { State.reset with
    grid := g
    policy := s.policy
    env := { inputs := inputs, outputs := outputs, draws := s.env.draws } }

/-- `reset(program, input_env, output_env)` (R250): a program that fails the load checks leaves the
block FAULTED with CAUSE = MALFORMED_PROGRAM before any step (R202, R252). -/
def State.resetWith (s : State) (g : Grid) (inputs : List InputReply) (outputs : List OutputReply) :
    State :=
  if g.loadOk then s.bound g inputs outputs
  else (s.bound g inputs outputs).takeFault .malformedProgram

end Sys2Proof.Machine
end

