-- ==== Sys2Proof/Machine/Assembler.lean ====
section
/-! DEFINITION. The spec's assembly syntax (R84, R85): `MNEMONIC [operand] [-> DIR]`, and the grid
listing. What R84 leaves open of it is log entry 18. -/

namespace Sys2Proof.Machine

/-- The words of a line: its maximal runs of characters other than the space. -/
def tokens (cs : List Char) : List (List Char) :=
  let r := cs.foldr (fun c acc => if c = ' ' then ([], acc.1 :: acc.2) else (c :: acc.1, acc.2)) ([], [])
  (r.1 :: r.2).filter (fun t => !t.isEmpty)

/-- The mnemonics, in the order of their OPC codes (R75, R84). -/
def mnemonics : List (List Char) :=
  ["BLANK".toList, "LOAD".toList, "STORE".toList, "INPUT".toList, "OUTPUT".toList, "ADD".toList,
   "SUB".toList, "MUL".toList, "NOOP".toList, "CASE".toList, "STOP".toList, "IMM".toList,
   "REVERSE".toList]

/-- The directions of `-> DIR`, in the order of their codes (R84). -/
def directionNames : List (List Char) :=
  ["UP".toList, "RIGHT".toList, "DOWN".toList, "LEFT".toList, "RIGHTUP".toList,
   "RIGHTDOWN".toList, "LEFTDOWN".toList, "LEFTUP".toList]

/-- The PRM code of an operand token for the opcode of code `opc` (R84): a letter A to Z, a digit 0 to
9, or no token at all, which assembles as 0x20. -/
def operandParam (form : ParamForm) (operand : Option (List Char)) : Option Byte :=
  match form, operand with
  | .ignored, none => some 0x20
  | .reg, some [c] =>
    if (regIdx (BitVec.ofNat 8 c.toNat)).isSome ∧ c.toNat < 0x80 then some (BitVec.ofNat 8 c.toNat)
    else none
  | .digit, some [c] =>
    if (digit (BitVec.ofNat 8 c.toNat)).isSome ∧ c.toNat < 0x80 then some (BitVec.ofNat 8 c.toNat)
    else none
  | _, _ => none

/-- The ARW code of what follows the operand: `-> DIR`, or nothing (R84). -/
def arrowTokens : List (List Char) → Option (BitVec 4)
  | [] => some 15
  | [arrow, d] =>
    if arrow = ['-', '>'] then (directionNames.findIdx? (· == d)).map (BitVec.ofNat 4 ·) else none
  | _ => none

/-- The form of the operand of the opcode of code `k` (R74, R84). -/
def operandForm (k : Nat) : ParamForm :=
  match decode (BitVec.ofNat 4 k ++ (0 : BitVec 4) ++ (0 : Byte)) with
  | .ok i => paramForm i
  | .error _ => .ignored

/-- The word of one instruction's tokens (R84). The case of the mnemonic does not matter. -/
def assembleTokens : List (List Char) → Option CellWord
  | [] => none
  | m :: rest =>
    match mnemonics.findIdx? (· == m.map Char.toUpper) with
    | none => none
    | some k =>
      let form := operandForm k
      let split := if form = .ignored then (none, rest) else (rest.head?, rest.tail)
      match operandParam form split.1, arrowTokens split.2 with
      | some p, some a => some (BitVec.ofNat 4 k ++ a ++ p)
      | _, _ => none

/-- The word of one line of assembly (R84). -/
def assemble (line : List Char) : Option CellWord := assembleTokens (tokens line)

/-- A decimal number. -/
def decimal (cs : List Char) : Option Nat :=
  if !cs.isEmpty && cs.all Char.isDigit then some (cs.foldl (fun n c => 10 * n + (c.toNat - '0'.toNat)) 0)
  else none

/-- The cell address `(r,c)` of a listing line (R84). -/
def cellAddress : List Char → Option Pos
  | '(' :: rest =>
    let r := rest.takeWhile (· ≠ ',')
    match rest.dropWhile (· ≠ ',') with
    | ',' :: more =>
      if more.getLast? = some ')' then
        match decimal r, decimal more.dropLast with
        | some row, some col => some { row := row, col := col }
        | _, _ => none
      else none
    | _ => none
  | _ => none

/-- A grid with one listing line `(r,c) INSTRUCTION` placed (R84). -/
def placeLine (g : Grid) (line : List Char) : Option Grid :=
  match tokens line with
  | at_ :: instr =>
    match cellAddress at_, assembleTokens instr with
    | some p, some w => if p.row < g.height ∧ p.col < g.width then some (g.setCell p w) else none
    | _, _ => none
  | [] => none

/-- The grid every cell of which holds the padding word (R84, R86). -/
def Grid.padding (h w : Nat) : Grid :=
  { height := h, width := w, rows := List.replicate h (List.replicate w paddingWord) }

/-- The grid of a listing: a header `grid H x W` and then lines `(r,c) INSTRUCTION`; every cell not
listed holds the padding word (R84). -/
def assembleGrid : List (List Char) → Option Grid
  | [] => none
  | header :: lines =>
    match tokens header with
    | [g, h, x, w] =>
      if g = "grid".toList ∧ x = ['x'] then
        match decimal h, decimal w with
        | some h, some w => lines.foldlM placeLine (Grid.padding h w)
        | _, _ => none
      else none
    | _ => none

end Sys2Proof.Machine
end

