-- ==== Sys2Proof/Machine/Codes.lean ====
section
/-! DEFINITION. The numeric codes the host reads for the control state (spec R29, R201; R26 for
LASTDIR, whose code is `Direction.code`). -/

namespace Sys2Proof.Machine

/-- The 2-bit code of RUNSTATE (R29). -/
def RunState.code : RunState → BitVec 2
  | .running => 0
  | .halted => 1
  | .faulted => 2

/-- The 3-bit code of CAUSE (R201). -/
def Cause.code : Cause → BitVec 3
  | .none => 0
  | .malformedProgram => 1
  | .invalidOpcode => 2
  | .invalidParam => 3
  | .noDirection => 4

end Sys2Proof.Machine
end

