-- ==== Sys2Proof/Machine/HostInterface.lean ====
section
/-! DEFINITION. The host's commands around a run: reset, run and read (spec R250, R254 to R259). -/

namespace Sys2Proof.Machine

/-- The block with the one fact its own state does not hold: whether the host has issued `run` since
the last reset (R257; log entry 15). -/
structure Session where
  core : State
  runIssued : Bool
  deriving DecidableEq, Repr

/-- A run is in progress: RUNSTATE is RUNNING after `run` (R257). -/
def Session.inProgress (b : Session) : Bool := b.runIssued && decide (b.core.runState = .running)

/-- The reset command: accepted in any RUNSTATE when no run is in progress (R250, R257). -/
def Session.hostReset (b : Session) (g : Grid) (inputs : List InputReply)
    (outputs : List OutputReply) : Option Session :=
  if b.inProgress then none
  else some { core := b.core.resetWith g inputs outputs, runIssued := false }

/-- The run command (R255): when RUNSTATE is HALTED or FAULTED it changes nothing (R256). During a run
the host has no move (R257). -/
def Session.hostRun (b : Session) : Option Session :=
  if b.inProgress then none
  else
    match b.core.runState with
    | .running => some { b with runIssued := true }
    | .halted => some b
    | .faulted => some b

/-- What the host may read (R258, R259): the codes are those of R26, R29 and R201. The grid is in it,
since R206 lets the host read the faulting word from the grid at IP; R259's list of readable state
has no grid. DESIGN CHOICE: the whole grid is readable whenever the block may be read (log
entry 21). -/
structure HostView where
  acc : Word
  regs : Vector Word 26
  ip : Pos
  lastDir : BitVec 3
  rev : Bool
  runState : BitVec 2
  cause : BitVec 3
  steps : Nat
  trace : List IoEvent
  grid : Grid
  deriving DecidableEq, Repr

/-- The readable part of the state, in the codes the host sees. -/
def State.view (s : State) : HostView where
  acc := s.acc
  regs := s.regs
  ip := s.ip
  lastDir := s.lastDir.code
  rev := s.rev
  runState := s.runState.code
  cause := s.cause.code
  steps := s.steps
  trace := s.trace
  grid := s.grid

/-- A read by the host: only while the block is not running, that is after reset and before run, or at
HALTED or FAULTED (R259). -/
def Session.hostRead (b : Session) : Option HostView :=
  if b.inProgress then none else some b.core.view

/-- Steps happen one after another while a run is in progress, and only then (R255). -/
def Session.step (b : Session) : Host.Outcome Session Fault Refusal :=
  if b.inProgress then
    match Sys2Proof.Machine.step b.core with
    | .next s => .next { b with core := s }
    | .fault r => .fault r
    | .refused r => .refused r
  else .next b

end Sys2Proof.Machine
end

