-- ==== Sys2Proof/Machine/Loader.lean ====
section
/-! DEFINITION. The text form of a program and the words it maps to (spec R80 to R83, R86). The loader
is outside the block (R4 (a)); it is written down here so that a grid can be built from text. A
line is the list of its characters without its terminator (log entry 17). -/

namespace Sys2Proof.Machine

/-- One field of program text: the opcode, param and arrow characters (R79, R80). -/
structure TextField where
  opcode : Char
  param : Char
  arrow : Char
  deriving DecidableEq, Repr

/-- The fields of a line; none where its length is not a multiple of 3 (R80). -/
def lineFields : List Char → Option (List TextField)
  | [] => some []
  | o :: p :: a :: rest => (lineFields rest).map ({ opcode := o, param := p, arrow := a } :: ·)
  | [_] => none
  | [_, _] => none

/-- The ARW code of an arrow character (R81): a space or '0' to '7'; every other character, '8' and
'9' among them, is fatal. -/
def arrowOfChar (c : Char) : Option (BitVec 4) :=
  if c = ' ' then some 15
  else if '0'.toNat ≤ c.toNat ∧ c.toNat ≤ '7'.toNat then some (BitVec.ofNat 4 (c.toNat - '0'.toNat))
  else none

/-- The OPC code of an opcode character (R82). `opcodeChars` is `OPCODE_CHAR` (R8), which the spec
leaves open: its `k`-th character, counted from 0, spells the opcode of code `k + 1`. -/
def opcodeOfChar (opcodeChars : List Char) (c : Char) : BitVec 4 :=
  if c = ' ' then 0
  else
    match opcodeChars.findIdx? (· == c) with
    | some k => BitVec.ofNat 4 (k + 1)
    | none => 0xF

/-- The PRM code of a param character (R83). -/
def paramOfChar (c : Char) : Byte := if c.toNat < 0x80 then BitVec.ofNat 8 c.toNat else 0xFF

/-- R8: `OPCODE_CHAR` is injective, on the twelve non-blank opcodes, and never the space. -/
def opcodeCharsOk (opcodeChars : List Char) : Bool :=
  opcodeChars.length == 12 && decide opcodeChars.Nodup && !opcodeChars.contains ' '

/-- The word of a field (R81 to R83). -/
def fieldWord (opcodeChars : List Char) (f : TextField) : Option CellWord :=
  (arrowOfChar f.arrow).map fun a => opcodeOfChar opcodeChars f.opcode ++ a ++ paramOfChar f.param

/-- The words of a line; none where the line is malformed. -/
def lineWords (opcodeChars : List Char) (line : List Char) : Option (List CellWord) :=
  (lineFields line).bind fun fs => fs.mapM (fieldWord opcodeChars)

/-- A row padded on the right with Blank instructions (R80, R86). -/
def padRow (w : Nat) (r : List CellWord) : List CellWord :=
  r ++ List.replicate (w - r.length) paddingWord

/-- The grid of a program text (R80): `H` is the number of lines and `W` the largest number of fields
on any line. Text with no lines, or with no field on any line, is malformed; `none` stands for
MALFORMED_PROGRAM at load, where no grid reaches the block (R252). -/
def loadText (opcodeChars : List Char) (lines : List (List Char)) : Option Grid :=
  (lines.mapM (lineWords opcodeChars)).bind fun rows =>
    let w := (rows.map List.length).foldr max 0
    if w = 0 then none
    else some { height := rows.length, width := w, rows := rows.map (padRow w) }

end Sys2Proof.Machine
end

