-- ==== Sys2Proof/Safety.lean ====
section
/-! DEFINITION. The terms claims are stated in: how a run ends (spec R258), which states a run reaches,
and the invariants of R35. -/

namespace Sys2Proof.Machine

/-- A run is finished exactly when RUNSTATE = HALTED (R258). -/
def State.finished (s : State) : Prop := s.runState = .halted

/-- A run in FAULTED is failed: it is never a finished run (R258). -/
def State.failed (s : State) : Prop := s.runState = .faulted

/-- `Runs s t`: some number of steps leads from `s` to `t`. -/
inductive Runs : State → State → Prop where
  | refl (s : State) : Runs s s
  | tail {s t u : State} : Runs s t → step t = .next u → Runs s u

/-- A run from `s` that neither halts nor faults, whether it loops or waits for ever on the environment,
is infinite (R258): whatever number of steps is taken, it is running and has a next step. A run that
the model stops, be it by a failing environment (log entry 8) or for want of a program (log
entry 11), is not infinite: R258 does not define it. A wait that never ends counts by its steps that
answer the same state (log entry 7). -/
def State.infinite (s : State) : Prop :=
  ∀ t : State, Runs s t → t.runState = .running ∧ ∃ u, step t = .next u

/-- An environment that answers every input request and accepts every output request, as the host must
supply it (R254 (2)). -/
def Env.Obliging (e : Env) : Prop :=
  (∀ r ∈ e.inputs, ∃ v, r = .answer v) ∧ ∀ r ∈ e.outputs, r = .accept

/-- The states a run reaches after some reset command with some program and some environment (R34,
R250). -/
def Reachable (t : State) : Prop :=
  ∃ (s : State) (g : Grid) (inputs : List InputReply) (outputs : List OutputReply),
    Runs (s.resetWith g inputs outputs) t

/-- The IP is on a cell: `0 ≤ IP.row < H` and `0 ≤ IP.col < W` (R24, R35). -/
def State.InGrid (s : State) : Prop := s.ip.row < s.grid.height ∧ s.ip.col < s.grid.width

/-- The invariants of R35 and R30: with a program that passed the load checks the IP is on a cell, and
CAUSE names a fault exactly in FAULTED. The ranges of ACC, of R[i] and of LASTDIR (R35) are their
types'. -/
def State.Inv (s : State) : Prop :=
  (s.grid.loadOk = true → s.InGrid) ∧ (s.runState = .faulted ↔ s.cause ≠ .none)

/-- A well-formed program has been supplied, and the IP is on one of its cells. -/
def State.Loaded (s : State) : Prop := s.grid.loadOk = true ∧ s.InGrid

/-- `t` is what `Move(d)` makes of the state `s` that the execute phase left, in the spec's own terms:
the direction is reversed when REV is set and recorded in LASTDIR (R109), the IP moves by its delta
with a floor-mod on both axes (R112), the step counts (R118), and nothing else changes. -/
def MoveEnding (d : Direction) (s t : State) : Prop :=
  let d' := if s.rev = true then opp d else d
  t = { s with
    lastDir := d'
    ip := { row := (Int.fmod (s.ip.row + rowDelta d') s.grid.height).toNat
            col := (Int.fmod (s.ip.col + colDelta d') s.grid.width).toNat }
    steps := s.steps + 1 }

/-- `t` is what `Halt` makes of `s`: RUNSTATE becomes HALTED (R113) and the step counts (R118). -/
def HaltEnding (s t : State) : Prop := t = { s with runState := .halted, steps := s.steps + 1 }

/-- `t` is what `raise Fault(c)` makes of `s`: RUNSTATE and CAUSE, and no other write (R200). -/
def FaultEnding (c : Cause) (s t : State) : Prop := t = { s with runState := .faulted, cause := c }

/-- `t` is how a step ends whose direction comes from the arrow `a`, where the execute phase left `s`:
`DIRREQ` (R106) followed by steps 3 to 5 of R101, with NO_DIRECTION or a halt where there is no arrow
(R114). -/
def ArrowEnding (a : Arrow) (s t : State) : Prop :=
  match a with
  | .toward d => MoveEnding d s t
  | .absent =>
    match s.policy with
    | .fault => FaultEnding .noDirection s t
    | .halt => HaltEnding s t
  | .malformed _ => FaultEnding .malformedProgram s t

/-- The same instruction with another arrow field. -/
def withArrow (a : Arrow) : Instr → Instr
  | .blank _ p => .blank a p
  | .load _ p => .load a p
  | .store _ p => .store a p
  | .input _ p => .input a p
  | .output _ p => .output a p
  | .add _ p => .add a p
  | .sub _ p => .sub a p
  | .mul _ p => .mul a p
  | .noop _ p => .noop a p
  | .caseSign _ p => .caseSign a p
  | .stop _ p => .stop a p
  | .imm _ p => .imm a p
  | .reverse _ p => .reverse a p

/-- The instruction a step of `s` would run, where there is one. -/
def State.current (s : State) : Option Instr :=
  match s.fetch with
  | none => none
  | some w =>
    match decode w with
    | .ok i => some i
    | .error _ => none

/-- The port request of the current instruction is one the environment never answers (R134; log
entries 4 and 7 for the listed `never`). -/
def State.Waiting (s : State) : Prop :=
  ∃ i : Instr, s.current = some i ∧ 0x30 ≤ i.param.toNat ∧ i.param.toNat ≤ 0x39 ∧
    ((i.opcode = 0x3 ∧ s.env.inputs.head? = some .never) ∨
      (i.opcode = 0x4 ∧ s.env.outputs.head? = some .never))

end Sys2Proof.Machine
end

