-- ==== Sys2Proof/Certificates/Slice0/Obligations.lean ====
section
/-! DEFINITION. The statements about the FEM CORE that the provers settle. -/

open Sys2Proof Sys2Proof.Machine

/-! ## Encoding -/

/-- R70 to R75: no bit of an encoding is dropped. It holds of every instruction, the malformed arrows
of R77 among them, so of every well-formed one. -/
def Obligations.DecodeAfterEncodeGivesInstruction : Prop :=
  ∀ i : Instr, decode (encode i) = .ok i

/-- R70, "The word has no other fields and no unused bits": a word that decodes is the encoding of
what it decodes to. -/
def Obligations.EncodeAfterDecodeGivesWord : Prop :=
  ∀ (w : CellWord) (i : Instr), decode w = .ok i → encode i = w

/-- R71 with the codes of R75 and R76: OPC alone selects the opcode, and 0xD to 0xF select none. -/
def Obligations.OpcodeFieldAloneSelectsInstruction : Prop :=
  ∀ w : CellWord,
    (w.toNat / 4096 ≤ 0xC → ∃ i, decode w = .ok i ∧ i.opcode.toNat = w.toNat / 4096) ∧
    (0xD ≤ w.toNat / 4096 → decode w = .error (.illegalOpcode (w.extractLsb' 12 4)))

/-- The examples of 30_encoding.md section 7, the padding word of R86, and one word of every other
opcode written out from `oooo aaaa pppppppp`. -/
def Obligations.ListedWordsDecodeAsListed : Prop :=
  decode 0b1011000100110101 = .ok (.imm (.toward .right) 0x35) ∧
  decode 0b0100001100110000 = .ok (.output (.toward .left) 0x30) ∧
  decode 0b1010111100100000 = .ok (.stop .absent 0x20) ∧
  decode 0b0001001001000011 = .ok (.load (.toward .down) 0x43) ∧
  decode 0b0010000101000010 = .ok (.store (.toward .right) 0x42) ∧
  decode 0b0011010100110011 = .ok (.input (.toward .rightDown) 0x33) ∧
  decode 0b0101001101000100 = .ok (.add (.toward .left) 0x44) ∧
  decode 0b0110001101000010 = .ok (.sub (.toward .left) 0x42) ∧
  decode 0b0111001001000101 = .ok (.mul (.toward .down) 0x45) ∧
  decode 0b1000000000100000 = .ok (.noop (.toward .up) 0x20) ∧
  decode 0b1001001100100000 = .ok (.caseSign (.toward .left) 0x20) ∧
  decode 0b1100001100100000 = .ok (.reverse (.toward .left) 0x20) ∧
  decode 0b0000111100100000 = .ok (.blank .absent 0x20)

/-- R77: a grid that holds an ARW code of 8 to 14 in any word, whatever its OPC, is refused at reset. -/
def Obligations.MalformedArrowIsRefusedAtReset : Prop :=
  ∀ (s : State) (g : Grid) (inputs : List InputReply) (outputs : List OutputReply)
    (r : List CellWord) (w : CellWord),
    r ∈ g.rows → w ∈ r → 8 ≤ (w.extractLsb' 8 4).toNat → (w.extractLsb' 8 4).toNat ≤ 14 →
    (s.resetWith g inputs outputs).runState = .faulted ∧
    (s.resetWith g inputs outputs).cause = .malformedProgram

/-! ## The instructions, one by one: encoding, result, faults and (by the equality) frame -/

/-- LOAD (R120): OPC 0x1 decodes to it; with PRM 'A' to 'Z' ACC takes R[x] and the arrow ends the step;
any other PRM raises INVALID_PARAM before any write; nothing else changes. -/
def Obligations.LoadCopiesRegisterToAccumulator : Prop :=
  (∀ w : CellWord, w.extractLsb' 12 4 = 0x1#4 →
    decode w = .ok (.load (Arrow.ofCode (w.extractLsb' 8 4)) (w.extractLsb' 0 8))) ∧
  ∀ (s : State) (a : Arrow) (p : Byte),
    (∀ x : RegIdx, p.toNat = 0x41 + x.val →
      ∃ t, exec (.load a p) s = .next t ∧ ArrowEnding a { s with acc := s.regs[x] } t) ∧
    (p.toNat < 0x41 ∨ 0x5A < p.toNat →
      ∃ t, exec (.load a p) s = .next t ∧ FaultEnding .invalidParam s t)

/-- STORE (R121): OPC 0x2 decodes to it; with PRM 'A' to 'Z' R[x] takes ACC, every other register stays
and the arrow ends the step; any other PRM raises INVALID_PARAM before any write; nothing else
changes. -/
def Obligations.StoreCopiesAccumulatorToRegister : Prop :=
  (∀ w : CellWord, w.extractLsb' 12 4 = 0x2#4 →
    decode w = .ok (.store (Arrow.ofCode (w.extractLsb' 8 4)) (w.extractLsb' 0 8))) ∧
  ∀ (s : State) (a : Arrow) (p : Byte),
    (∀ x : RegIdx, p.toNat = 0x41 + x.val →
      ∃ (t : State) (r : Vector Word 26), exec (.store a p) s = .next t ∧
        r[x] = s.acc ∧ (∀ y : RegIdx, y ≠ x → r[y] = s.regs[y]) ∧
        ArrowEnding a { s with regs := r } t) ∧
    (p.toNat < 0x41 ∨ 0x5A < p.toNat →
      ∃ t, exec (.store a p) s = .next t ∧ FaultEnding .invalidParam s t)

/-- IMM (R122): OPC 0xB decodes to it; with PRM '0' to '9' ACC takes the digit's value and the arrow ends
the step; any other PRM raises INVALID_PARAM before any write; nothing else changes. -/
def Obligations.ImmSetsAccumulatorToDigit : Prop :=
  (∀ w : CellWord, w.extractLsb' 12 4 = 0xB#4 →
    decode w = .ok (.imm (Arrow.ofCode (w.extractLsb' 8 4)) (w.extractLsb' 0 8))) ∧
  ∀ (s : State) (a : Arrow) (p : Byte),
    (∀ k : Nat, k ≤ 9 → p.toNat = 0x30 + k →
      ∃ (t : State) (v : Word), exec (.imm a p) s = .next t ∧ v.toInt = k ∧
        ArrowEnding a { s with acc := v } t) ∧
    (p.toNat < 0x30 ∨ 0x39 < p.toNat →
      ∃ t, exec (.imm a p) s = .next t ∧ FaultEnding .invalidParam s t)

/-- INPUT (R130, R132, R134). How the environment's replies are held in the state is the model's
choice (log entries 4, 5 and 7): a listed answer is used up, and with no reply listed some value,
which nothing constrains, is answered. -/
def Obligations.InputAnswersIntoAccumulator : Prop :=
  ∀ (s : State) (a : Arrow) (p : Byte),
    (∀ n : Port, p.toNat = 0x30 + n.val →
      (∀ (v : Word) (rest : List InputReply), s.env.inputs = .answer v :: rest →
        ∃ t, exec (.input a p) s = .next t ∧
          ArrowEnding a
            { s with
              acc := v
              trace := s.trace ++ [.received n v]
              env := { s.env with inputs := rest, draws := s.env.draws + 1 } } t) ∧
      (s.env.inputs = [] →
        ∃ (v : Word) (t : State), exec (.input a p) s = .next t ∧
          ArrowEnding a
            { s with
              acc := v
              trace := s.trace ++ [.received n v]
              env := { s.env with draws := s.env.draws + 1 } } t) ∧
      (∀ rest : List InputReply, s.env.inputs = .never :: rest → exec (.input a p) s = .next s)) ∧
    (p.toNat < 0x30 ∨ 0x39 < p.toNat →
      ∃ t, exec (.input a p) s = .next t ∧ FaultEnding .invalidParam s t)

/-- OUTPUT (R131, R133, R134). How the environment's replies are held in the state is the model's
choice (log entries 4, 6 and 7): a listed acceptance is used up, and with no reply listed the
request is accepted. -/
def Obligations.OutputDeliversAccumulator : Prop :=
  ∀ (s : State) (a : Arrow) (p : Byte),
    (∀ n : Port, p.toNat = 0x30 + n.val →
      (∀ rest : List OutputReply, s.env.outputs = .accept :: rest →
        ∃ t, exec (.output a p) s = .next t ∧
          ArrowEnding a
            { s with
              trace := s.trace ++ [.delivered n s.acc]
              env := { s.env with outputs := rest } } t) ∧
      (s.env.outputs = [] →
        ∃ t, exec (.output a p) s = .next t ∧
          ArrowEnding a { s with trace := s.trace ++ [.delivered n s.acc] } t) ∧
      (∀ rest : List OutputReply, s.env.outputs = .never :: rest →
        exec (.output a p) s = .next s)) ∧
    (p.toNat < 0x30 ∨ 0x39 < p.toNat →
      ∃ t, exec (.output a p) s = .next t ∧ FaultEnding .invalidParam s t)

/-- ADD (R141): OPC 0x5 decodes to it; with PRM 'A' to 'Z' ACC takes the wrapped exact sum (the wrap of
R12 at DW = 64 is written out) and the arrow ends the step; any other PRM raises INVALID_PARAM
before any write; nothing else changes. -/
def Obligations.AddWrapsExactSum : Prop :=
  (∀ w : CellWord, w.extractLsb' 12 4 = 0x5#4 →
    decode w = .ok (.add (Arrow.ofCode (w.extractLsb' 8 4)) (w.extractLsb' 0 8))) ∧
  ∀ (s : State) (a : Arrow) (p : Byte),
    (∀ x : RegIdx, p.toNat = 0x41 + x.val →
      ∃ (t : State) (v : Word), exec (.add a p) s = .next t ∧
        v.toInt = Int.fmod (s.acc.toInt + s.regs[x].toInt + 2 ^ 63) (2 ^ 64) - 2 ^ 63 ∧
        ArrowEnding a { s with acc := v } t) ∧
    (p.toNat < 0x41 ∨ 0x5A < p.toNat →
      ∃ t, exec (.add a p) s = .next t ∧ FaultEnding .invalidParam s t)

/-- SUB (R142): OPC 0x6 decodes to it; with PRM 'A' to 'Z' ACC takes the wrapped exact difference ACC
minus R[x] and the arrow ends the step; any other PRM raises INVALID_PARAM before any write; nothing
else changes. -/
def Obligations.SubWrapsExactDifference : Prop :=
  (∀ w : CellWord, w.extractLsb' 12 4 = 0x6#4 →
    decode w = .ok (.sub (Arrow.ofCode (w.extractLsb' 8 4)) (w.extractLsb' 0 8))) ∧
  ∀ (s : State) (a : Arrow) (p : Byte),
    (∀ x : RegIdx, p.toNat = 0x41 + x.val →
      ∃ (t : State) (v : Word), exec (.sub a p) s = .next t ∧
        v.toInt = Int.fmod (s.acc.toInt - s.regs[x].toInt + 2 ^ 63) (2 ^ 64) - 2 ^ 63 ∧
        ArrowEnding a { s with acc := v } t) ∧
    (p.toNat < 0x41 ∨ 0x5A < p.toNat →
      ∃ t, exec (.sub a p) s = .next t ∧ FaultEnding .invalidParam s t)

/-- MUL (R143): OPC 0x7 decodes to it; with PRM 'A' to 'Z' ACC takes the wrapped exact signed product and
the arrow ends the step; any other PRM raises INVALID_PARAM before any write; nothing else changes. -/
def Obligations.MulWrapsExactProduct : Prop :=
  (∀ w : CellWord, w.extractLsb' 12 4 = 0x7#4 →
    decode w = .ok (.mul (Arrow.ofCode (w.extractLsb' 8 4)) (w.extractLsb' 0 8))) ∧
  ∀ (s : State) (a : Arrow) (p : Byte),
    (∀ x : RegIdx, p.toNat = 0x41 + x.val →
      ∃ (t : State) (v : Word), exec (.mul a p) s = .next t ∧
        v.toInt = Int.fmod (s.acc.toInt * s.regs[x].toInt + 2 ^ 63) (2 ^ 64) - 2 ^ 63 ∧
        ArrowEnding a { s with acc := v } t) ∧
    (p.toNat < 0x41 ∨ 0x5A < p.toNat →
      ∃ t, exec (.mul a p) s = .next t ∧ FaultEnding .invalidParam s t)

/-- NOOP (R150): OPC 0x8 decodes to it; whatever PRM is, no state is written and the arrow ends the
step, with NO_DIRECTION (or a halt, by the policy) where there is none. -/
def Obligations.NoopOnlyFollowsItsArrow : Prop :=
  (∀ w : CellWord, w.extractLsb' 12 4 = 0x8#4 →
    decode w = .ok (.noop (Arrow.ofCode (w.extractLsb' 8 4)) (w.extractLsb' 0 8))) ∧
  ∀ (s : State) (a : Arrow) (p : Byte),
    ∃ t, exec (.noop a p) s = .next t ∧ ArrowEnding a s t

/-- CASE (R151): OPC 0x9 decodes to it; whatever PRM and the arrow are, it moves Up, Right or Down as ACC
is negative, zero or positive (reversed like any move when REV is set), and never faults. -/
def Obligations.CaseMovesBySignOfAccumulator : Prop :=
  (∀ w : CellWord, w.extractLsb' 12 4 = 0x9#4 →
    decode w = .ok (.caseSign (Arrow.ofCode (w.extractLsb' 8 4)) (w.extractLsb' 0 8))) ∧
  ∀ (s : State) (a : Arrow) (p : Byte),
    ∃ t, exec (.caseSign a p) s = .next t ∧
      (s.acc.toInt < 0 → MoveEnding .up s t) ∧
      (s.acc.toInt = 0 → MoveEnding .right s t) ∧
      (0 < s.acc.toInt → MoveEnding .down s t)

/-- STOP (R152, R113): OPC 0xA decodes to it; whatever PRM and the arrow are, the step ends in HALTED
where it is; and with NO_ARROW_POLICY = FAULT (this
hardware) STOP is the only way a run ends without a fault. -/
def Obligations.StopAloneHaltsAndStaysInPlace : Prop :=
  (∀ w : CellWord, w.extractLsb' 12 4 = 0xA#4 →
    decode w = .ok (.stop (Arrow.ofCode (w.extractLsb' 8 4)) (w.extractLsb' 0 8))) ∧
  (∀ (s : State) (a : Arrow) (p : Byte),
    ∃ t, exec (.stop a p) s = .next t ∧ HaltEnding s t) ∧
  ∀ s t : State, s.runState = .running → s.policy = .fault → step s = .next t →
    t.runState = .halted →
    (∃ (a : Arrow) (p : Byte), s.current = some (.stop a p)) ∧ HaltEnding s t

/-- REVERSE (R153, R111): OPC 0xC decodes to it; whatever PRM is, REV is inverted and the arrow, resolved
with the inverted flag, ends the step; REV stays inverted when there is no arrow. -/
def Obligations.ReverseInvertsFlagThenFollowsArrow : Prop :=
  (∀ w : CellWord, w.extractLsb' 12 4 = 0xC#4 →
    decode w = .ok (.reverse (Arrow.ofCode (w.extractLsb' 8 4)) (w.extractLsb' 0 8))) ∧
  ∀ (s : State) (a : Arrow) (p : Byte),
    ∃ t, exec (.reverse a p) s = .next t ∧ ArrowEnding a { s with rev := !s.rev } t

/-- BLANK (R154): OPC 0x0 decodes to it; whatever PRM and the arrow are, it moves in LASTDIR, which the
resolver reverses and records when REV is set, and never faults. -/
def Obligations.BlankMovesInLastDirection : Prop :=
  (∀ w : CellWord, w.extractLsb' 12 4 = 0x0#4 →
    decode w = .ok (.blank (Arrow.ofCode (w.extractLsb' 8 4)) (w.extractLsb' 0 8))) ∧
  ∀ (s : State) (a : Arrow) (p : Byte),
    ∃ t, exec (.blank a p) s = .next t ∧ MoveEnding s.lastDir s t

/-! ## Arithmetic -/

/-- R140 at DW = 64 (log entry 1): the wrapped exact result is the low 64 bits of the exact result. -/
def Obligations.WrappedResultIsLowBits : Prop :=
  ∀ x y : Word,
    wrap (x.toInt + y.toInt) = x + y ∧ wrap (x.toInt - y.toInt) = x - y ∧
    wrap (x.toInt * y.toInt) = x * y

/-! ## Directions and movement -/

/-- R107 and R108: the tables, and what R119 says of them. -/
def Obligations.DirectionTablesAreAntipodal : Prop :=
  (∀ d : Direction, (opp d).code = d.code ^^^ 2 ∧ opp (opp d) = d ∧
    rowDelta (opp d) = -rowDelta d ∧ colDelta (opp d) = -colDelta d ∧
    -1 ≤ rowDelta d ∧ rowDelta d ≤ 1 ∧ -1 ≤ colDelta d ∧ colDelta d ≤ 1) ∧
  (∀ d e : Direction, rowDelta d = rowDelta e → colDelta d = colDelta e → d = e) ∧
  (rowDelta .up = -1 ∧ colDelta .up = 0 ∧ rowDelta .right = 0 ∧ colDelta .right = 1 ∧
    rowDelta .rightUp = -1 ∧ colDelta .rightUp = 1 ∧ rowDelta .rightDown = 1 ∧
    colDelta .rightDown = 1)

/-- R112 with R13 and R24: the machine's move (the one an arrowed NOOP makes) ends, from a cell, on a
cell, and each coordinate is the one in range that differs from the coordinate displaced by
`delta(d')` by a multiple of the grid's size, where `d'` is the resolved direction. -/
def Obligations.MoveStaysOnTorus : Prop :=
  ∀ (s : State) (d : Direction), s.InGrid →
    let d' := if s.rev = true then opp d else d
    (s.move d).InGrid ∧
    (s.grid.height : Int) ∣ ((s.move d).ip.row - (s.ip.row + rowDelta d')) ∧
    (s.grid.width : Int) ∣ ((s.move d).ip.col - (s.ip.col + colDelta d')) ∧
    ∀ p : Byte, exec (.noop (.toward d) p) s = .next (s.move d)

/-- R119, third property: the wraps at the four edges, for every grid size. -/
def Obligations.EdgesWrapAround : Prop :=
  ∀ (g : Grid) (r c : Nat), r < g.height → c < g.width →
    g.advance ⟨0, c⟩ .up = ⟨g.height - 1, c⟩ ∧
    g.advance ⟨r, 0⟩ .left = ⟨r, g.width - 1⟩ ∧
    g.advance ⟨g.height - 1, c⟩ .down = ⟨0, c⟩ ∧
    g.advance ⟨r, g.width - 1⟩ .right = ⟨r, 0⟩

/-- R119, fourth property: after `k` REVERSEs, however they are arrowed, a NOOP that requests `d` moves
in `d` or in its opposite, by the parity of `k` and the flag's first value. -/
def Obligations.ReverseParityDecidesMovement : Prop :=
  ∀ (f : Nat → State) (a : Nat → Arrow) (p : Nat → Byte) (k : Nat),
    (∀ n, n < k → exec (.reverse (a n) (p n)) (f n) = .next (f (n + 1))) →
    ∀ (d : Direction) (q : Byte) (t : State), exec (.noop (.toward d) q) (f k) = .next t →
      t.lastDir = if xor (f 0).rev (k % 2 == 1) then opp d else d

/-- R110 and R154: with REV clear a BLANK goes straight on, and LASTDIR stays; while REV is set each
BLANK sends the IP back to the cell it came from (it moves against LASTDIR and records that), so that
two in a row restore IP and LASTDIR. -/
def Obligations.BlankGoesStraightOrBouncesBack : Prop :=
  ∀ (s t u : State) (a b : Arrow) (p q : Byte), s.InGrid →
    exec (.blank a p) s = .next t → exec (.blank b q) t = .next u →
    (s.rev = false →
      t.lastDir = s.lastDir ∧ u.lastDir = s.lastDir ∧ t.ip = s.grid.advance s.ip s.lastDir) ∧
    (s.rev = true →
      t.lastDir = opp s.lastDir ∧ t.ip = s.grid.advance s.ip (opp s.lastDir) ∧
      u.ip = s.ip ∧ u.lastDir = s.lastDir)

/-! ## The step -/

/-- R101 and R102: a running block runs the instruction its IP's word decodes to; the step adds
nothing around it. -/
def Obligations.StepRunsDecodedInstruction : Prop :=
  ∀ (s : State) (w : CellWord) (i : Instr), s.runState = .running → s.fetch = some w →
    decode w = .ok i → step s = exec i s

/-- R103: an OPC of 0xD, 0xE or 0xF raises INVALID_OPCODE before any state changes. -/
def Obligations.IllegalOpcodeFaultsBeforeAnyEffect : Prop :=
  ∀ (s : State) (w : CellWord), s.runState = .running → s.fetch = some w →
    0xD ≤ (w.extractLsb' 12 4).toNat →
    ∃ t, step s = .next t ∧ FaultEnding .invalidOpcode s t

/-- R204: the param check fails before any effect and before any port request, whatever the arrow and
the environment. -/
def Obligations.InvalidParamFaultsBeforeAnyEffect : Prop :=
  ∀ (s : State) (i : Instr),
    (i.opcode ∈ ([0x1, 0x2, 0x5, 0x6, 0x7] : List (BitVec 4)) ∧
        (i.param.toNat < 0x41 ∨ 0x5A < i.param.toNat)) ∨
      (i.opcode ∈ ([0x3, 0x4, 0xB] : List (BitVec 4)) ∧
        (i.param.toNat < 0x30 ∨ 0x39 < i.param.toNat)) →
    ∃ t, exec i s = .next t ∧ FaultEnding .invalidParam s t

/-- R102 with R252: with a well-formed program and the IP on a cell the fetch succeeds, and the step
never ends in the model's own fault `fetchOutsideGrid`. That fault is the model's reading (DEDUCED,
log entry 11); a refused step is not spoken of. -/
def Obligations.FetchAlwaysSucceeds : Prop :=
  ∀ s : State, s.Loaded → (∃ w, s.fetch = some w) ∧ ∀ r : Fault, step s ≠ .fault r

/-- With a well-formed program, the IP on a cell and an environment that lists no failure, every step
answers a next state. That a failing environment ends in a refusal is the model's choice (log
entry 8), and so is it that a step answers the same state in HALTED and FAULTED (log entry 9) and
while a request is never answered (log entry 7). -/
def Obligations.LoadedBlockAlwaysSteps : Prop :=
  ∀ s : State, s.Loaded → .failure ∉ s.env.inputs → .failure ∉ s.env.outputs →
    ∃ t, step s = .next t

/-- R254 and R115: with what the host must supply (a well-formed program and an environment that answers
every request) a running block never waits: every step counts or ends the run in a fault, and the
environment goes on answering. That a request beyond the listed replies is answered or accepted is
the model's choice of form (log entries 4, 5 and 6). -/
def Obligations.BootedBlockNeverWaits : Prop :=
  ∀ s : State, s.Loaded → s.env.Obliging → s.runState = .running →
    ∃ t, step s = .next t ∧ t.env.Obliging ∧ (t.steps = s.steps + 1 ∨ t.runState = .faulted)

/-- A failing environment while a request is pending: the run has no end state the spec describes
(R136, R218), and the model refuses it by name (log entry 8). -/
def Obligations.FailingEnvironmentIsRefused : Prop :=
  ∀ (s : State) (a : Arrow) (p : Byte), 0x30 ≤ p.toNat → p.toNat ≤ 0x39 →
    (∀ rest : List InputReply, s.env.inputs = .failure :: rest →
      exec (.input a p) s = .refused .environmentFailed) ∧
    (∀ rest : List OutputReply, s.env.outputs = .failure :: rest →
      exec (.output a p) s = .refused .environmentFailed)

/-- R134, R216 and R258: a request that is never answered leaves the block waiting for ever in RUNNING
with nothing changed, whatever run of steps is tried, and such a run is infinite (log entries 4
and 7 for how the model says so). -/
def Obligations.UnansweredRequestWaitsForEver : Prop :=
  ∀ (s : State) (i : Instr), s.runState = .running → s.current = some i →
    0x30 ≤ i.param.toNat → i.param.toNat ≤ 0x39 →
    (i.opcode = 0x3 ∧ s.env.inputs.head? = some .never) ∨
      (i.opcode = 0x4 ∧ s.env.outputs.head? = some .never) →
    step s = .next s ∧ s.infinite ∧ ∀ t, Runs s t → t = s

/-- R100 and R29: HALTED and FAULTED are terminal: no number of steps changes anything. That the
model's step answers the same state there is its choice (log entry 9). -/
def Obligations.StoppedBlockStaysAsItIs : Prop :=
  ∀ s : State, s.runState ≠ .running → step s = .next s ∧ ∀ t, Runs s t → t = s

/-! ## Whole-machine rules -/

/-- R23: no instruction but STORE writes a named register, and STORE writes only the register it names,
with ACC. -/
def Obligations.OnlyStoreWritesRegisters : Prop :=
  ∀ (s t : State) (x : RegIdx), step s = .next t → t.regs[x] ≠ s.regs[x] →
    ∃ (a : Arrow) (p : Byte), s.current = some (.store a p) ∧ p.toNat = 0x41 + x.val ∧
      t.regs[x] = s.acc

/-- R20, the written-by column of ACC: only LOAD, INPUT, ADD, SUB, MUL and IMM write it. -/
def Obligations.OnlyListedInstructionsWriteAccumulator : Prop :=
  ∀ s t : State, step s = .next t → t.acc ≠ s.acc →
    ∃ i : Instr, s.current = some i ∧
      i.opcode ∈ ([0x1, 0x3, 0x5, 0x6, 0x7, 0xB] : List (BitVec 4))

/-- R28: only REVERSE writes REV, and it inverts it. -/
def Obligations.OnlyReverseWritesReversalFlag : Prop :=
  ∀ s t : State, step s = .next t → t.rev ≠ s.rev →
    (∃ (a : Arrow) (p : Byte), s.current = some (.reverse a p)) ∧ t.rev = !s.rev

/-- R135 and R56: a step changes the trace only by adding one event, an `In` of INPUT with the value
ACC takes or an `Out` of OUTPUT that delivers ACC; and a step that runs INPUT or OUTPUT on a good
param adds its event, however the step ends, unless the request waits (log entries 4 and 7 for how
the model says that). -/
def Obligations.TraceRecordsExactlyThePortRequests : Prop :=
  ∀ s t : State, step s = .next t →
    (t.trace ≠ s.trace →
      ∃ (i : Instr) (n : Port), s.current = some i ∧ i.param.toNat = 0x30 + n.val ∧
        ((i.opcode = 0x3 ∧ t.trace = s.trace ++ [.received n t.acc]) ∨
          (i.opcode = 0x4 ∧ t.trace = s.trace ++ [.delivered n s.acc] ∧ t.acc = s.acc))) ∧
    ∀ (i : Instr) (n : Port), s.runState = .running → s.current = some i →
      i.param.toNat = 0x30 + n.val → ¬ s.Waiting →
      (i.opcode = 0x3 → t.trace = s.trace ++ [.received n t.acc]) ∧
      (i.opcode = 0x4 → t.trace = s.trace ++ [.delivered n s.acc] ∧ t.acc = s.acc)

/-- R117: no step writes LASTDIR or IP unless it resolved a direction, and then it goes on running. -/
def Obligations.OnlyResolvedDirectionMoves : Prop :=
  ∀ s t : State, s.runState = .running → step s = .next t →
    t.ip ≠ s.ip ∨ t.lastDir ≠ s.lastDir →
    t.ip = s.grid.advance s.ip t.lastDir ∧ t.steps = s.steps + 1 ∧ t.runState = .running

/-- R118: STEPS is 0 after reset, and no instruction reads it; a step of a running block that faults
does not count, and every other one counts once, but for one that waits on a request never answered,
which leaves the whole state as it was (R134; that a wait shows as a step of the model is log
entry 7). -/
def Obligations.StepsCountsMovesAndHalts : Prop :=
  (∀ (s : State) (g : Grid) (inputs : List InputReply) (outputs : List OutputReply),
    (s.resetWith g inputs outputs).steps = 0) ∧
  (∀ (s t : State) (i : Instr) (n : Nat), exec i s = .next t →
    ∃ m : Nat, exec i { s with steps := n } = .next { t with steps := m }) ∧
  ∀ s t : State, s.runState = .running → step s = .next t →
    (t.runState = .faulted → t.steps = s.steps) ∧
    (s.Waiting → t = s) ∧
    (t.runState ≠ .faulted → ¬ s.Waiting → t.steps = s.steps + 1)

/-- R206: what a fault raised by a step records. The writes NO_DIRECTION keeps are those the same
instruction makes with an arrow. -/
def Obligations.FaultKeepsStateAtFaultingCell : Prop :=
  ∀ s t : State, s.runState = .running → step s = .next t → t.runState = .faulted →
    t.ip = s.ip ∧ t.lastDir = s.lastDir ∧ t.cause ≠ .none ∧ t.grid = s.grid ∧
    (t.cause = .invalidOpcode ∨ t.cause = .invalidParam → FaultEnding t.cause s t) ∧
    (t.cause = .noDirection →
      ∃ i : Instr, s.current = some i ∧ i.arrow = .absent ∧
        ∀ d : Direction, ∃ u : State, exec (withArrow (.toward d) i) s = .next u ∧
          t.acc = u.acc ∧ t.regs = u.regs ∧ t.rev = u.rev ∧ t.trace = u.trace)

/-- R207: the checks run in a fixed order, and the first that fails wins: opcode, param, and only then
the direction; a block whose program passed the load checks never raises MALFORMED_PROGRAM. -/
def Obligations.FirstFailingCheckNamesTheCause : Prop :=
  ∀ (s t : State) (w : CellWord), s.Loaded → s.runState = .running → s.fetch = some w →
    step s = .next t → t.runState = .faulted →
    (t.cause = .invalidOpcode ↔ ∀ i, decode w ≠ .ok i) ∧
    (t.cause = .invalidParam ↔ ∃ i, decode w = .ok i ∧ paramOk i = false) ∧
    (t.cause = .noDirection ↔
      ∃ i, decode w = .ok i ∧ paramOk i = true ∧ usesArrow i = true ∧ i.arrow = .absent) ∧
    t.cause ≠ .malformedProgram

/-- R62 and R32: every fetch of a cell returns the word it held at reset, and NO_ARROW_POLICY stays.
That the reset command itself keeps NO_ARROW_POLICY is the model's reading (DEDUCED, log entry 16). -/
def Obligations.GridIsAsAtReset : Prop :=
  ∀ (s t : State) (g : Grid) (inputs : List InputReply) (outputs : List OutputReply),
    Runs (s.resetWith g inputs outputs) t →
    (∀ c : Pos, t.grid.cell c = g.cell c) ∧ t.grid = g ∧ t.policy = s.policy

/-- R27 and R33: only BLANK reads LASTDIR: for every other instruction, two states that differ in
LASTDIR alone lead to states that differ in LASTDIR at most. -/
def Obligations.OnlyBlankReadsLastDirection : Prop :=
  ∀ (s t : State) (i : Instr) (d : Direction), i.opcode ≠ 0x0 → exec i s = .next t →
    ∃ e : Direction, exec i { s with lastDir := d } = .next { t with lastDir := e }

/-- R28 and R33: REV is read only by the resolver: it decides nothing but REV itself and where the IP
and LASTDIR go. -/
def Obligations.ReversalFlagOnlySteersMovement : Prop :=
  ∀ (s t : State) (i : Instr) (b : Bool), exec i s = .next t →
    ∃ (c : Bool) (q : Pos) (e : Direction),
      exec i { s with rev := b } = .next { t with rev := c, ip := q, lastDir := e }

/-! ## Frames -/

/-- R120, R122, R141 to R143: what LOAD, IMM, ADD, SUB and MUL leave unchanged. -/
def Obligations.AccumulatorInstructionsFrame : Prop :=
  ∀ (s t : State) (a : Arrow) (p : Byte) (i : Instr),
    i = .load a p ∨ i = .imm a p ∨ i = .add a p ∨ i = .sub a p ∨ i = .mul a p →
    exec i s = .next t →
    (∀ x : RegIdx, t.regs[x] = s.regs[x]) ∧ t.rev = s.rev ∧ t.trace = s.trace ∧
    (∀ c : Pos, t.grid.cell c = s.grid.cell c) ∧ t.grid = s.grid ∧ t.policy = s.policy ∧
    t.env = s.env ∧
    (t.runState ≠ s.runState ∨ t.cause ≠ s.cause → paramOk i = false ∨ ∀ d : Direction, a ≠ .toward d)

/-- R121: what STORE leaves unchanged: ACC, every register but the one it names, and all else. -/
def Obligations.StoreFrame : Prop :=
  ∀ (s t : State) (a : Arrow) (p : Byte), exec (.store a p) s = .next t →
    (∀ x : RegIdx, p.toNat ≠ 0x41 + x.val → t.regs[x] = s.regs[x]) ∧ t.acc = s.acc ∧
    t.rev = s.rev ∧ t.trace = s.trace ∧ (∀ c : Pos, t.grid.cell c = s.grid.cell c) ∧
    t.grid = s.grid ∧ t.policy = s.policy ∧ t.env = s.env ∧
    (t.runState ≠ s.runState ∨ t.cause ≠ s.cause →
      paramOk (.store a p) = false ∨ ∀ d : Direction, a ≠ .toward d)

/-- R130 and R131: what INPUT and OUTPUT leave unchanged; OUTPUT leaves ACC as well, and each leaves
the other's replies. The reply lists and the draw counter are the model's form of the environment
(DESIGN CHOICE, log entries 4 and 5). -/
def Obligations.PortInstructionsFrame : Prop :=
  ∀ (s t : State) (a : Arrow) (p : Byte) (i : Instr),
    i = .input a p ∨ i = .output a p → exec i s = .next t →
    (∀ x : RegIdx, t.regs[x] = s.regs[x]) ∧ t.rev = s.rev ∧
    (∀ c : Pos, t.grid.cell c = s.grid.cell c) ∧ t.grid = s.grid ∧ t.policy = s.policy ∧
    (i = .output a p → t.acc = s.acc ∧ t.env.inputs = s.env.inputs ∧ t.env.draws = s.env.draws) ∧
    (i = .input a p → t.env.outputs = s.env.outputs) ∧
    (t.runState ≠ s.runState ∨ t.cause ≠ s.cause → paramOk i = false ∨ ∀ d : Direction, a ≠ .toward d)

/-- R150 to R154: NOOP, CASE, STOP, REVERSE and BLANK change no data: ACC, every register, the trace,
the grid and the environment stay, and so does REV but for REVERSE. -/
def Obligations.FlowInstructionsFrame : Prop :=
  ∀ (s t : State) (i : Instr),
    i.opcode ∈ ([0x0, 0x8, 0x9, 0xA, 0xC] : List (BitVec 4)) → exec i s = .next t →
    t.acc = s.acc ∧ (∀ x : RegIdx, t.regs[x] = s.regs[x]) ∧ t.trace = s.trace ∧
    (∀ c : Pos, t.grid.cell c = s.grid.cell c) ∧ t.grid = s.grid ∧ t.policy = s.policy ∧
    t.env = s.env ∧ (i.opcode ≠ 0xC → t.rev = s.rev) ∧
    (i.opcode = 0xA → t.ip = s.ip ∧ t.lastDir = s.lastDir ∧ t.cause = s.cause) ∧
    (i.opcode = 0x0 ∨ i.opcode = 0x9 → t.runState = s.runState ∧ t.cause = s.cause) ∧
    (t.runState ≠ s.runState ∨ t.cause ≠ s.cause → i.opcode = 0xA ∨ ∀ d : Direction, i.arrow ≠ .toward d)

/-! ## Reset, the load checks and the invariants -/

/-- R251: the reset values, and what RUNSTATE and CAUSE are when the load checks pass and when they
fail (R252, R202); the trace is empty and STEPS is 0. -/
def Obligations.ResetSetsEveryResetValue : Prop :=
  ∀ (s : State) (g : Grid) (inputs : List InputReply) (outputs : List OutputReply),
    let t := s.resetWith g inputs outputs
    t.acc.toInt = 0 ∧ (∀ x : RegIdx, t.regs[x].toInt = 0) ∧ t.ip = ⟨0, 0⟩ ∧ t.lastDir.code = 1 ∧
    t.rev = false ∧ t.steps = 0 ∧ t.trace = [] ∧ t.grid = g ∧ t.env.inputs = inputs ∧
    t.env.outputs = outputs ∧
    (g.loadOk = true → t.runState.code = 0 ∧ t.cause.code = 0) ∧
    (g.loadOk = false → t.runState.code = 2 ∧ t.cause.code = 1)

/-- The reset values of R251 in `State.reset`, which stands for the block before a program is supplied
(log entry 10). -/
def Obligations.ResetStateHoldsResetValues : Prop :=
  State.reset.acc = 0 ∧ (∀ x : RegIdx, State.reset.regs[x] = 0) ∧ State.reset.ip = ⟨0, 0⟩ ∧
  State.reset.lastDir = .right ∧ State.reset.rev = false ∧ State.reset.runState = .running ∧
  State.reset.cause = .none ∧ State.reset.steps = 0 ∧ State.reset.trace = []

/-- R252 (a) to (c): which grids pass the load checks. -/
def Obligations.LoadChecksAreSizeShapeAndArrows : Prop :=
  ∀ g : Grid, g.loadOk = true ↔
    1 ≤ g.height ∧ g.height ≤ Config.hMax ∧ 1 ≤ g.width ∧ g.width ≤ Config.wMax ∧
    g.rows.length = g.height ∧
    ∀ r ∈ g.rows, r.length = g.width ∧
      ∀ w ∈ r, (w.extractLsb' 8 4).toNat ≤ 7 ∨ (w.extractLsb' 8 4).toNat = 15

/-- R253: the first instruction executed is the cell at (0, 0), with LASTDIR = Right and REV = 0. -/
def Obligations.FirstInstructionIsCellZero : Prop :=
  ∀ (s : State) (g : Grid) (inputs : List InputReply) (outputs : List OutputReply),
    g.loadOk = true →
    let t := s.resetWith g inputs outputs
    t.lastDir = .right ∧ t.rev = false ∧ t.runState = .running ∧
    ∃ (w : CellWord) (row : List CellWord) (rows : List (List CellWord)),
      g.rows = (w :: row) :: rows ∧ t.fetch = some w ∧
      ∀ i : Instr, decode w = .ok i → step t = exec i t

/-- R35 and R30: every step keeps the invariants: the IP stays on a cell of a well-formed grid, and
CAUSE names a fault exactly in FAULTED; and it keeps it that a running block has a well-formed
program with its IP on a cell. -/
def Obligations.StepKeepsInvariant : Prop :=
  ∀ s t : State, step s = .next t →
    (s.Inv → t.Inv) ∧
    ((s.runState = .running → s.Loaded) → t.runState = .running → t.Loaded)

/-- The invariants hold at `State.reset`. -/
def Obligations.ResetStateMeetsInvariant : Prop := State.reset.Inv

/-- R35 over everything a block can reach after any reset command with any program and environment: the
invariants hold, a running block has a well-formed program and its IP on a cell, ACC and every
register are in the 64-bit range (R12) and LASTDIR is a valid code (these ranges are their types'). -/
def Obligations.ReachableStatesMeetInvariant : Prop :=
  ∀ t : State, Reachable t →
    t.Inv ∧ (t.runState = .running → t.Loaded) ∧
    -2 ^ 63 ≤ t.acc.toInt ∧ t.acc.toInt ≤ 2 ^ 63 - 1 ∧
    (∀ x : RegIdx, -2 ^ 63 ≤ t.regs[x].toInt ∧ t.regs[x].toInt ≤ 2 ^ 63 - 1) ∧
    t.lastDir.code.toNat ≤ 7

/-- R7 and R24: on a grid that passed the load checks the coordinates of the IP fit the RW and CW bits
of its fields, whatever H_MAX and W_MAX are. -/
def Obligations.InstructionPointerFitsItsFields : Prop :=
  ∀ s : State, s.Loaded → s.ip.row < 2 ^ Config.rowBits ∧ s.ip.col < 2 ^ Config.colBits

/-! ## The host -/

/-- R256: `run()` issued when RUNSTATE is HALTED or FAULTED takes no step and changes nothing. That the
step of a stopped block answers the same state is log entry 9 (DEDUCED), and that whether run was
issued stays as it was is log entry 15 (DESIGN CHOICE). -/
def Obligations.RunOfAStoppedBlockChangesNothing : Prop :=
  ∀ b : Session, b.core.runState = .halted ∨ b.core.runState = .faulted →
    b.hostRun = some b ∧ b.step = .next b

/-- R255, R257, R259 and R250: run of a running block is accepted where it has not been issued, changes
no state and starts the run; while a run is in progress the host has no move and steps happen;
otherwise it may read, and reset is accepted. What it reads holds the word at the IP (R206). That
`run` has been issued is a fact of the model's own (log entry 15), that no step shows as the same
state is log entry 9, and that the grid is read with the rest is log entry 21. -/
def Obligations.HostActsOnlyBetweenRuns : Prop :=
  ∀ (b : Session) (g : Grid) (inputs : List InputReply) (outputs : List OutputReply),
    (b.runIssued = true ∧ b.core.runState = .running →
      b.hostReset g inputs outputs = none ∧ b.hostRun = none ∧ b.hostRead = none ∧
      ∀ t, step b.core = .next t → b.step = .next { b with core := t }) ∧
    (b.runIssued = false ∨ b.core.runState ≠ .running →
      b.hostReset g inputs outputs =
        some { core := b.core.resetWith g inputs outputs, runIssued := false } ∧
      b.hostRead = some b.core.view ∧ b.core.view.grid.cell b.core.view.ip = b.core.fetch ∧
      b.step = .next b) ∧
    (b.runIssued = false ∧ b.core.runState = .running →
      ∃ c : Session, b.hostRun = some c ∧ c.core = b.core ∧ c.inProgress = true ∧
        ∀ t, step c.core = .next t → c.step = .next { c with core := t })

/-! ## Program text -/

/-- R80 and R81: a grid the loader makes of a text has one row per line and passes every load check
but the size limits. -/
def Obligations.LoadedTextPassesShapeChecks : Prop :=
  ∀ (chars : List Char) (lines : List (List Char)) (g : Grid), loadText chars lines = some g →
    g.height = lines.length ∧ 1 ≤ g.height ∧ 1 ≤ g.width ∧
    (∀ line ∈ lines, line.length % 3 = 0 ∧ line.length ≤ 3 * g.width) ∧
    g.rectangular = true ∧ g.arrowsOk = true

/-- R80 and R86: field `k` of line `r` is cell `(r, k)`, and the cells past a line's last field hold
the padding word 0x0F20. -/
def Obligations.LoadedTextPlacesFieldsAndPadding : Prop :=
  ∀ (chars : List Char) (lines : List (List Char)) (g : Grid), loadText chars lines = some g →
    ∀ (r k : Nat) (row : List Char), lines[r]? = some row → k < g.width →
      (row.length ≤ 3 * k → g.cell ⟨r, k⟩ = some 0x0F20) ∧
      ∀ o p a : Char, row[3 * k]? = some o → row[3 * k + 1]? = some p →
        row[3 * k + 2]? = some a →
        ∃ w, fieldWord chars ⟨o, p, a⟩ = some w ∧ g.cell ⟨r, k⟩ = some w
end

