-- ==== Sys2Proof/Laws/State.lean ====
section
/-! SUPPORT. One lemma per field of State for each named update, so that no later proof unfolds a
record update. -/

namespace Sys2Proof.Machine

variable (s : State)

/-! ### `ACC <- v` -/

@[simp] theorem State.setAcc_acc (v : Word) : (s.setAcc v).acc = v := rfl
@[simp] theorem State.setAcc_regs (v : Word) : (s.setAcc v).regs = s.regs := rfl
@[simp] theorem State.setAcc_ip (v : Word) : (s.setAcc v).ip = s.ip := rfl
@[simp] theorem State.setAcc_lastDir (v : Word) : (s.setAcc v).lastDir = s.lastDir := rfl
@[simp] theorem State.setAcc_rev (v : Word) : (s.setAcc v).rev = s.rev := rfl
@[simp] theorem State.setAcc_runState (v : Word) : (s.setAcc v).runState = s.runState := rfl
@[simp] theorem State.setAcc_cause (v : Word) : (s.setAcc v).cause = s.cause := rfl
@[simp] theorem State.setAcc_steps (v : Word) : (s.setAcc v).steps = s.steps := rfl
@[simp] theorem State.setAcc_trace (v : Word) : (s.setAcc v).trace = s.trace := rfl
@[simp] theorem State.setAcc_grid (v : Word) : (s.setAcc v).grid = s.grid := rfl
@[simp] theorem State.setAcc_policy (v : Word) : (s.setAcc v).policy = s.policy := rfl
@[simp] theorem State.setAcc_env (v : Word) : (s.setAcc v).env = s.env := rfl

/-! ### `R[x] <- v` -/

@[simp] theorem State.setReg_acc (x : RegIdx) (v : Word) : (s.setReg x v).acc = s.acc := rfl
@[simp] theorem State.setReg_regs (x : RegIdx) (v : Word) : (s.setReg x v).regs =
    s.regs.set x v := rfl
@[simp] theorem State.setReg_ip (x : RegIdx) (v : Word) : (s.setReg x v).ip = s.ip := rfl
@[simp] theorem State.setReg_lastDir (x : RegIdx) (v : Word) : (s.setReg x v).lastDir =
    s.lastDir := rfl
@[simp] theorem State.setReg_rev (x : RegIdx) (v : Word) : (s.setReg x v).rev = s.rev := rfl
@[simp] theorem State.setReg_runState (x : RegIdx) (v : Word) : (s.setReg x v).runState =
    s.runState := rfl
@[simp] theorem State.setReg_cause (x : RegIdx) (v : Word) : (s.setReg x v).cause = s.cause := rfl
@[simp] theorem State.setReg_steps (x : RegIdx) (v : Word) : (s.setReg x v).steps = s.steps := rfl
@[simp] theorem State.setReg_trace (x : RegIdx) (v : Word) : (s.setReg x v).trace = s.trace := rfl
@[simp] theorem State.setReg_grid (x : RegIdx) (v : Word) : (s.setReg x v).grid = s.grid := rfl
@[simp] theorem State.setReg_policy (x : RegIdx) (v : Word) : (s.setReg x v).policy =
    s.policy := rfl
@[simp] theorem State.setReg_env (x : RegIdx) (v : Word) : (s.setReg x v).env = s.env := rfl

/-! ### `REV <- NOT REV` -/

@[simp] theorem State.toggleRev_acc : s.toggleRev.acc = s.acc := rfl
@[simp] theorem State.toggleRev_regs : s.toggleRev.regs = s.regs := rfl
@[simp] theorem State.toggleRev_ip : s.toggleRev.ip = s.ip := rfl
@[simp] theorem State.toggleRev_lastDir : s.toggleRev.lastDir = s.lastDir := rfl
@[simp] theorem State.toggleRev_rev : s.toggleRev.rev = !s.rev := rfl
@[simp] theorem State.toggleRev_runState : s.toggleRev.runState = s.runState := rfl
@[simp] theorem State.toggleRev_cause : s.toggleRev.cause = s.cause := rfl
@[simp] theorem State.toggleRev_steps : s.toggleRev.steps = s.steps := rfl
@[simp] theorem State.toggleRev_trace : s.toggleRev.trace = s.trace := rfl
@[simp] theorem State.toggleRev_grid : s.toggleRev.grid = s.grid := rfl
@[simp] theorem State.toggleRev_policy : s.toggleRev.policy = s.policy := rfl
@[simp] theorem State.toggleRev_env : s.toggleRev.env = s.env := rfl

/-! ### `Move(d)` -/

@[simp] theorem State.move_acc (d : Direction) : (s.move d).acc = s.acc := rfl
@[simp] theorem State.move_regs (d : Direction) : (s.move d).regs = s.regs := rfl
@[simp] theorem State.move_ip (d : Direction) : (s.move d).ip =
    s.grid.advance s.ip (resolve s.rev d) := rfl
@[simp] theorem State.move_lastDir (d : Direction) : (s.move d).lastDir = resolve s.rev d := rfl
@[simp] theorem State.move_rev (d : Direction) : (s.move d).rev = s.rev := rfl
@[simp] theorem State.move_runState (d : Direction) : (s.move d).runState = s.runState := rfl
@[simp] theorem State.move_cause (d : Direction) : (s.move d).cause = s.cause := rfl
@[simp] theorem State.move_steps (d : Direction) : (s.move d).steps = s.steps + 1 := rfl
@[simp] theorem State.move_trace (d : Direction) : (s.move d).trace = s.trace := rfl
@[simp] theorem State.move_grid (d : Direction) : (s.move d).grid = s.grid := rfl
@[simp] theorem State.move_policy (d : Direction) : (s.move d).policy = s.policy := rfl
@[simp] theorem State.move_env (d : Direction) : (s.move d).env = s.env := rfl

/-! ### `Halt` -/

@[simp] theorem State.halt_acc : s.halt.acc = s.acc := rfl
@[simp] theorem State.halt_regs : s.halt.regs = s.regs := rfl
@[simp] theorem State.halt_ip : s.halt.ip = s.ip := rfl
@[simp] theorem State.halt_lastDir : s.halt.lastDir = s.lastDir := rfl
@[simp] theorem State.halt_rev : s.halt.rev = s.rev := rfl
@[simp] theorem State.halt_runState : s.halt.runState = .halted := rfl
@[simp] theorem State.halt_cause : s.halt.cause = s.cause := rfl
@[simp] theorem State.halt_steps : s.halt.steps = s.steps + 1 := rfl
@[simp] theorem State.halt_trace : s.halt.trace = s.trace := rfl
@[simp] theorem State.halt_grid : s.halt.grid = s.grid := rfl
@[simp] theorem State.halt_policy : s.halt.policy = s.policy := rfl
@[simp] theorem State.halt_env : s.halt.env = s.env := rfl

/-! ### `raise Fault(c)` -/

@[simp] theorem State.takeFault_acc (c : Cause) : (s.takeFault c).acc = s.acc := rfl
@[simp] theorem State.takeFault_regs (c : Cause) : (s.takeFault c).regs = s.regs := rfl
@[simp] theorem State.takeFault_ip (c : Cause) : (s.takeFault c).ip = s.ip := rfl
@[simp] theorem State.takeFault_lastDir (c : Cause) : (s.takeFault c).lastDir = s.lastDir := rfl
@[simp] theorem State.takeFault_rev (c : Cause) : (s.takeFault c).rev = s.rev := rfl
@[simp] theorem State.takeFault_runState (c : Cause) : (s.takeFault c).runState = .faulted := rfl
@[simp] theorem State.takeFault_cause (c : Cause) : (s.takeFault c).cause = c := rfl
@[simp] theorem State.takeFault_steps (c : Cause) : (s.takeFault c).steps = s.steps := rfl
@[simp] theorem State.takeFault_trace (c : Cause) : (s.takeFault c).trace = s.trace := rfl
@[simp] theorem State.takeFault_grid (c : Cause) : (s.takeFault c).grid = s.grid := rfl
@[simp] theorem State.takeFault_policy (c : Cause) : (s.takeFault c).policy = s.policy := rfl
@[simp] theorem State.takeFault_env (c : Cause) : (s.takeFault c).env = s.env := rfl

/-! ### a completed `IN(p)` -/

@[simp] theorem State.recordInput_acc (p : Port) (v : Word) : (s.recordInput p v).acc = s.acc := rfl
@[simp] theorem State.recordInput_regs (p : Port) (v : Word) : (s.recordInput p v).regs =
    s.regs := rfl
@[simp] theorem State.recordInput_ip (p : Port) (v : Word) : (s.recordInput p v).ip = s.ip := rfl
@[simp] theorem State.recordInput_lastDir (p : Port) (v : Word) : (s.recordInput p v).lastDir =
    s.lastDir := rfl
@[simp] theorem State.recordInput_rev (p : Port) (v : Word) : (s.recordInput p v).rev = s.rev := rfl
@[simp] theorem State.recordInput_runState (p : Port) (v : Word) : (s.recordInput p v).runState =
    s.runState := rfl
@[simp] theorem State.recordInput_cause (p : Port) (v : Word) : (s.recordInput p v).cause =
    s.cause := rfl
@[simp] theorem State.recordInput_steps (p : Port) (v : Word) : (s.recordInput p v).steps =
    s.steps := rfl
@[simp] theorem State.recordInput_trace (p : Port) (v : Word) : (s.recordInput p v).trace =
    s.trace ++ [.received p v] := rfl
@[simp] theorem State.recordInput_grid (p : Port) (v : Word) : (s.recordInput p v).grid =
    s.grid := rfl
@[simp] theorem State.recordInput_policy (p : Port) (v : Word) : (s.recordInput p v).policy =
    s.policy := rfl
@[simp] theorem State.recordInput_env (p : Port) (v : Word) : (s.recordInput p v).env =
    { s.env with inputs := s.env.inputs.tail, draws := s.env.draws + 1 } := rfl

/-! ### a completed `OUT(p, v)` -/

@[simp] theorem State.recordOutput_acc (p : Port) (v : Word) : (s.recordOutput p v).acc =
    s.acc := rfl
@[simp] theorem State.recordOutput_regs (p : Port) (v : Word) : (s.recordOutput p v).regs =
    s.regs := rfl
@[simp] theorem State.recordOutput_ip (p : Port) (v : Word) : (s.recordOutput p v).ip = s.ip := rfl
@[simp] theorem State.recordOutput_lastDir (p : Port) (v : Word) : (s.recordOutput p v).lastDir =
    s.lastDir := rfl
@[simp] theorem State.recordOutput_rev (p : Port) (v : Word) : (s.recordOutput p v).rev =
    s.rev := rfl
@[simp] theorem State.recordOutput_runState (p : Port) (v : Word) : (s.recordOutput p v).runState =
    s.runState := rfl
@[simp] theorem State.recordOutput_cause (p : Port) (v : Word) : (s.recordOutput p v).cause =
    s.cause := rfl
@[simp] theorem State.recordOutput_steps (p : Port) (v : Word) : (s.recordOutput p v).steps =
    s.steps := rfl
@[simp] theorem State.recordOutput_trace (p : Port) (v : Word) : (s.recordOutput p v).trace =
    s.trace ++ [.delivered p v] := rfl
@[simp] theorem State.recordOutput_grid (p : Port) (v : Word) : (s.recordOutput p v).grid =
    s.grid := rfl
@[simp] theorem State.recordOutput_policy (p : Port) (v : Word) : (s.recordOutput p v).policy =
    s.policy := rfl
@[simp] theorem State.recordOutput_env (p : Port) (v : Word) : (s.recordOutput p v).env =
    { s.env with outputs := s.env.outputs.tail } := rfl

/-! ### Reading a register after writing one -/

@[simp] theorem State.reg_setReg_same (x : RegIdx) (v : Word) : (s.setReg x v).reg x = v := by
  simp [State.reg, State.setReg]

theorem State.reg_setReg_other {x y : RegIdx} (h : y ≠ x) (v : Word) :
    (s.setReg x v).reg y = s.reg y := by
  have hv : x.val ≠ y.val := fun e => h (Fin.ext e.symm)
  simp [State.reg, State.setReg, Vector.getElem_set_ne _ _ hv]

end Sys2Proof.Machine
end

