-- ==== Sys2Proof/Laws/Ops.lean ====
section
/-! SUPPORT. What each shared operation can do, said once: the operand decoders, the wrap, the torus,
the grid and its canonical form, and the endings of a step. -/

namespace Sys2Proof.Machine

/-! ### Operands -/

theorem regIdx_eq_some_iff {p : Byte} {x : RegIdx} : regIdx p = some x ↔ p.toNat = 0x41 + x.val := by
  unfold regIdx
  split
  · rw [Option.some.injEq, Fin.ext_iff]
    dsimp only
    omega
  · have := x.isLt
    simp only [reduceCtorEq, false_iff]
    omega

theorem regIdx_eq_none_iff {p : Byte} : regIdx p = none ↔ p.toNat < 0x41 ∨ 0x5A < p.toNat := by
  unfold regIdx
  split <;> simp <;> omega

theorem digit_eq_some_iff {p : Byte} {k : Fin 10} : digit p = some k ↔ p.toNat = 0x30 + k.val := by
  unfold digit
  split
  · rw [Option.some.injEq, Fin.ext_iff]
    dsimp only
    omega
  · have := k.isLt
    simp only [reduceCtorEq, false_iff]
    omega

theorem digit_eq_none_iff {p : Byte} : digit p = none ↔ p.toNat < 0x30 ∨ 0x39 < p.toNat := by
  unfold digit
  split <;> simp <;> omega

/-! ### Param checks: everything a checked execute phase can do -/

theorem withReg_of_some {p : Byte} {s : State} {x : RegIdx}
    {run : RegIdx → Host.Outcome State Fault Refusal} (h : regIdx p = some x) :
    withReg p s run = run x := by
  simp [withReg, h]

theorem withReg_of_none {p : Byte} {s : State} {run : RegIdx → Host.Outcome State Fault Refusal}
    (h : regIdx p = none) : withReg p s run = .next (s.takeFault .invalidParam) := by
  simp [withReg, h]

theorem withReg_cases {p : Byte} {s : State} {run : RegIdx → Host.Outcome State Fault Refusal}
    {r : Host.Outcome State Fault Refusal} (h : withReg p s run = r) :
    (∃ x, regIdx p = some x ∧ run x = r) ∨
      (regIdx p = none ∧ r = .next (s.takeFault .invalidParam)) := by
  cases hp : regIdx p with
  | some x => exact .inl ⟨x, rfl, (withReg_of_some hp).symm.trans h⟩
  | none => exact .inr ⟨rfl, h.symm.trans (withReg_of_none hp)⟩

theorem withDigit_of_some {p : Byte} {s : State} {k : Fin 10}
    {run : Fin 10 → Host.Outcome State Fault Refusal} (h : digit p = some k) :
    withDigit p s run = run k := by
  simp [withDigit, h]

theorem withDigit_of_none {p : Byte} {s : State} {run : Fin 10 → Host.Outcome State Fault Refusal}
    (h : digit p = none) : withDigit p s run = .next (s.takeFault .invalidParam) := by
  simp [withDigit, h]

theorem withDigit_cases {p : Byte} {s : State} {run : Fin 10 → Host.Outcome State Fault Refusal}
    {r : Host.Outcome State Fault Refusal} (h : withDigit p s run = r) :
    (∃ k, digit p = some k ∧ run k = r) ∨
      (digit p = none ∧ r = .next (s.takeFault .invalidParam)) := by
  cases hp : digit p with
  | some k => exact .inl ⟨k, rfl, (withDigit_of_some hp).symm.trans h⟩
  | none => exact .inr ⟨rfl, h.symm.trans (withDigit_of_none hp)⟩

/-! ### Wrap-around -/

/-- The wrapped value, read as signed, is the integer that R12 gives. -/
theorem toInt_wrap (v : Int) : (wrap v).toInt = wrapAt 64 v := by
  simp only [wrap, Config.dataWidth, BitVec.toInt_ofInt, wrapAt]
  rw [Int.bmod_def]
  omega

/-! ### The torus -/

theorem wrapCoord_lt {x : Nat} {d : Int} {n : Nat} (h : 0 < n) : wrapCoord x d n < n := by
  unfold wrapCoord
  have h1 := Int.emod_nonneg (x + d) (b := (n : Int)) (by omega)
  have h2 := Int.emod_lt_of_pos (x + d) (b := (n : Int)) (by omega)
  omega

theorem cast_wrapCoord {x : Nat} {d : Int} {n : Nat} (h : 0 < n) :
    (wrapCoord x d n : Int) = (x + d) % n := by
  have := Int.emod_nonneg (x + d) (b := (n : Int)) (by omega)
  unfold wrapCoord
  omega

theorem State.move_inGrid {s : State} (h : s.InGrid) (d : Direction) : (s.move d).InGrid :=
  ⟨wrapCoord_lt (Nat.zero_lt_of_lt h.1), wrapCoord_lt (Nat.zero_lt_of_lt h.2)⟩

/-! ### The grid: its canonical form and read after write -/

theorem Grid.rectangular_iff {g : Grid} :
    g.rectangular = true ↔ g.rows.length = g.height ∧ ∀ r ∈ g.rows, r.length = g.width := by
  simp [Grid.rectangular]

/-- Placing a word keeps the canonical form of the grid. -/
theorem Grid.setCell_rectangular {g : Grid} (h : g.rectangular = true) (p : Pos) (w : CellWord) :
    (g.setCell p w).rectangular = true := by
  rw [Grid.rectangular_iff] at h ⊢
  refine ⟨by simpa [Grid.setCell] using h.1, fun r hr => ?_⟩
  obtain ⟨i, hi, rfl⟩ := List.getElem_of_mem hr
  simp only [Grid.setCell, List.length_modify, List.getElem_modify] at hi ⊢
  split
  · simpa using h.2 _ (List.getElem_mem hi)
  · exact h.2 _ (List.getElem_mem hi)

/-- The grid of `State.reset` has the canonical form. -/
theorem reset_grid_rectangular : State.reset.grid.rectangular = true := by decide

/-- A cell of a grid in canonical form holds a word. -/
theorem Grid.cell_isSome {g : Grid} (h : g.rectangular = true) {p : Pos} (hr : p.row < g.height)
    (hc : p.col < g.width) : ∃ r w, r ∈ g.rows ∧ w ∈ r ∧ g.cell p = some w := by
  rw [Grid.rectangular_iff] at h
  have hrow : p.row < g.rows.length := h.1 ▸ hr
  have hmem := List.getElem_mem hrow
  have hcol : p.col < g.rows[p.row].length := (h.2 _ hmem).symm ▸ hc
  exact ⟨_, _, hmem, List.getElem_mem hcol, by simp [Grid.cell, hr, hc, hrow, hcol]⟩

/-- A cell that was read is read back as the word placed in it. -/
theorem Grid.cell_setCell_same {g : Grid} {p : Pos} {v : CellWord} (h : g.cell p = some v)
    (w : CellWord) : (g.setCell p w).cell p = some w := by
  unfold Grid.cell at h
  split at h
  · next hin =>
    split at h
    · next r hr =>
      obtain ⟨hlen, -⟩ := List.getElem?_eq_some_iff.mp h
      simp [Grid.cell, Grid.setCell, hin, hr, hlen]
    · cases h
  · cases h

/-- Placing a word leaves every other cell as it was. -/
theorem Grid.cell_setCell_other {g : Grid} {p q : Pos} (h : q ≠ p) (w : CellWord) :
    (g.setCell p w).cell q = g.cell q := by
  have hne : q.row ≠ p.row ∨ q.col ≠ p.col := by
    by_contra hc
    push Not at hc
    exact h (by cases q; cases p; simp_all)
  simp only [Grid.cell, Grid.setCell, List.getElem?_modify]
  split
  · rcases hne with hrow | hcol
    · have e : ¬p.row = q.row := fun e => hrow e.symm
      cases g.rows[q.row]? <;> simp [e]
    · cases hq : g.rows[q.row]? with
      | none => simp
      | some r =>
        by_cases e : p.row = q.row
        · simp [e, List.getElem?_set_ne (Ne.symm hcol)]
        · simp [e]
  · rfl

theorem Grid.loadOk_rectangular {g : Grid} (h : g.loadOk = true) : g.rectangular = true := by
  simp only [Grid.loadOk, Grid.loadOkWithin, Bool.and_eq_true] at h
  exact h.1.2

theorem Grid.loadOk_pos {g : Grid} (h : g.loadOk = true) : 1 ≤ g.height ∧ 1 ≤ g.width := by
  simp only [Grid.loadOk, Grid.loadOkWithin, Bool.and_eq_true, decide_eq_true_eq] at h
  exact ⟨h.1.1.1.1.1, h.1.1.1.2⟩

/-! ### Port requests -/

theorem State.inputReply_eq_never_iff {s : State} :
    s.inputReply = .never ↔ s.env.inputs.head? = some .never := by
  unfold State.inputReply
  cases s.env.inputs <;> simp

theorem State.outputReply_eq_never_iff {s : State} :
    s.outputReply = .never ↔ s.env.outputs.head? = some .never := by
  unfold State.outputReply
  cases s.env.outputs <;> simp

/-! ### Endings of a step -/

/-- Every way a step ends: `MoveEnding`, `HaltEnding` and `FaultEnding` say what each leaves. -/
theorem State.move_ending (s : State) (d : Direction) : MoveEnding d s (s.move d) := by
  have h1 : (0 : Int) ≤ s.grid.height := by omega
  have h2 : (0 : Int) ≤ s.grid.width := by omega
  simp [MoveEnding, State.move, resolve, Grid.advance, wrapCoord, Int.fmod_eq_emod_of_nonneg, h1, h2]

theorem State.noArrow_cases (s : State) :
    (s.policy = .fault ∧ s.noArrow = s.takeFault .noDirection) ∨
      (s.policy = .halt ∧ s.noArrow = s.halt) := by
  unfold State.noArrow
  cases s.policy
  · exact .inl ⟨rfl, rfl⟩
  · exact .inr ⟨rfl, rfl⟩

/-- Everything `conclude` can do with the outcome of an arrow. -/
theorem State.conclude_dirReq_cases (s : State) (a : Arrow) :
    (∃ d, a = .toward d ∧ s.conclude (dirReq a) = s.move d) ∨
    (a = .absent ∧ s.policy = .fault ∧ s.conclude (dirReq a) = s.takeFault .noDirection) ∨
    (a = .absent ∧ s.policy = .halt ∧ s.conclude (dirReq a) = s.halt) ∨
    (∃ k, a = .malformed k ∧ s.conclude (dirReq a) = s.takeFault .malformedProgram) := by
  cases a with
  | toward d => exact .inl ⟨d, rfl, rfl⟩
  | absent =>
    rcases s.noArrow_cases with ⟨h, e⟩ | ⟨h, e⟩
    · exact .inr (.inl ⟨rfl, h, e⟩)
    · exact .inr (.inr (.inl ⟨rfl, h, e⟩))
  | malformed k => exact .inr (.inr (.inr ⟨k, rfl, rfl⟩))

/-- No ending touches the data, the observations of the ports or the configuration. -/
theorem State.conclude_data (s : State) (o : ExecOutcome) :
    (s.conclude o).acc = s.acc ∧ (s.conclude o).regs = s.regs ∧ (s.conclude o).rev = s.rev ∧
    (s.conclude o).trace = s.trace ∧ (s.conclude o).grid = s.grid ∧
    (s.conclude o).policy = s.policy ∧ (s.conclude o).env = s.env := by
  cases o with
  | move d => exact ⟨rfl, rfl, rfl, rfl, rfl, rfl, rfl⟩
  | noArrow =>
    rcases s.noArrow_cases with ⟨-, e⟩ | ⟨-, e⟩ <;> simp [State.conclude, e]
  | halt => exact ⟨rfl, rfl, rfl, rfl, rfl, rfl, rfl⟩
  | malformed => exact ⟨rfl, rfl, rfl, rfl, rfl, rfl, rfl⟩

end Sys2Proof.Machine
end

