-- ==== Sys2Proof/Laws/Exec.lean ====
section
/-! SUPPORT. What an instruction and what a step can do, said once: the execute phase of each
instruction as a relation, the outcome it returns, and the two inversion lemmas that later proofs
cite instead of unfolding `exec` and `step`. -/

namespace Sys2Proof.Machine

/-- `e` is the state the execute phase of `i` leaves, begun in `s`. -/
def Effect (i : Instr) (s e : State) : Prop :=
  match i with
  | .blank _ _ => e = s
  | .load _ p => ∃ x, regIdx p = some x ∧ e = s.setAcc (s.reg x)
  | .store _ p => ∃ x, regIdx p = some x ∧ e = s.setReg x s.acc
  | .input _ p => ∃ n v, digit p = some n ∧ s.inputReply = .answer v ∧ e = (s.recordInput n v).setAcc v
  | .output _ p => ∃ n, digit p = some n ∧ s.outputReply = .accept ∧ e = s.recordOutput n s.acc
  | .add _ p => ∃ x, regIdx p = some x ∧ e = s.setAcc (wrap (s.acc.toInt + (s.reg x).toInt))
  | .sub _ p => ∃ x, regIdx p = some x ∧ e = s.setAcc (wrap (s.acc.toInt - (s.reg x).toInt))
  | .mul _ p => ∃ x, regIdx p = some x ∧ e = s.setAcc (wrap (s.acc.toInt * (s.reg x).toInt))
  | .noop _ _ => e = s
  | .caseSign _ _ => e = s
  | .stop _ _ => e = s
  | .imm _ p => ∃ k, digit p = some k ∧ e = s.setAcc (BitVec.ofNat 64 k.val)
  | .reverse _ _ => e = s.toggleRev

/-- The outcome the execute phase of `i` returns, begun in `s` (R105). -/
def outcomeOf (i : Instr) (s : State) : ExecOutcome :=
  match i with
  | .blank _ _ => .move s.lastDir
  | .caseSign _ _ => .move (caseDirection (signOf s.acc))
  | .stop _ _ => .halt
  | .load a _ => dirReq a
  | .store a _ => dirReq a
  | .input a _ => dirReq a
  | .output a _ => dirReq a
  | .add a _ => dirReq a
  | .sub a _ => dirReq a
  | .mul a _ => dirReq a
  | .noop a _ => dirReq a
  | .imm a _ => dirReq a
  | .reverse a _ => dirReq a

/-- `i` makes a port request in `s` that the environment never answers (R134). -/
def Waits (i : Instr) (s : State) : Prop :=
  (i.opcode = 0x3 ∧ s.inputReply = .never) ∨ (i.opcode = 0x4 ∧ s.outputReply = .never)

/-- Everything an instruction that answers a next state can have done. -/
theorem exec_cases {i : Instr} {s t : State} (h : exec i s = .next t) :
    (paramOk i = false ∧ t = s.takeFault .invalidParam) ∨ (paramOk i = true ∧ Waits i s ∧ t = s) ∨
    (paramOk i = true ∧ ∃ e, Effect i s e ∧ t = e.conclude (outcomeOf i s)) := by
  cases i with
  | blank a p | noop a p | caseSign a p | stop a p | reverse a p =>
    cases h
    exact .inr (.inr ⟨rfl, _, rfl, rfl⟩)
  | load a p | store a p | add a p | sub a p | mul a p =>
    rcases withReg_cases h with ⟨x, hx, e⟩ | ⟨hx, e⟩
    · cases e
      exact .inr (.inr ⟨by simp [paramOk, paramForm, Instr.param, hx], _, ⟨x, hx, rfl⟩, rfl⟩)
    · cases e
      exact .inl ⟨by simp [paramOk, paramForm, Instr.param, hx], rfl⟩
  | imm a p =>
    rcases withDigit_cases h with ⟨x, hx, e⟩ | ⟨hx, e⟩
    · cases e
      exact .inr (.inr ⟨by simp [paramOk, paramForm, Instr.param, hx], _, ⟨x, hx, rfl⟩, rfl⟩)
    · cases e
      exact .inl ⟨by simp [paramOk, paramForm, Instr.param, hx], rfl⟩
  | input a p =>
    rcases withDigit_cases h with ⟨n, hn, e⟩ | ⟨hn, e⟩
    · have hp : paramOk (.input a p) = true := by simp [paramOk, paramForm, Instr.param, hn]
      cases hr : s.inputReply <;> simp only [hr, Host.Outcome.next.injEq, reduceCtorEq] at e
      · exact .inr (.inr ⟨hp, _, ⟨n, _, hn, hr, rfl⟩, e.symm⟩)
      · exact .inr (.inl ⟨hp, .inl ⟨rfl, hr⟩, e.symm⟩)
    · cases e
      exact .inl ⟨by simp [paramOk, paramForm, Instr.param, hn], rfl⟩
  | output a p =>
    rcases withDigit_cases h with ⟨n, hn, e⟩ | ⟨hn, e⟩
    · have hp : paramOk (.output a p) = true := by simp [paramOk, paramForm, Instr.param, hn]
      cases hr : s.outputReply <;> simp only [hr, Host.Outcome.next.injEq, reduceCtorEq] at e
      · exact .inr (.inr ⟨hp, _, ⟨n, hn, hr, rfl⟩, e.symm⟩)
      · exact .inr (.inl ⟨hp, .inr ⟨rfl, hr⟩, e.symm⟩)
    · cases e
      exact .inl ⟨by simp [paramOk, paramForm, Instr.param, hn], rfl⟩

/-- No execute phase touches IP, LASTDIR, RUNSTATE, CAUSE, STEPS or the configuration. -/
theorem Effect.keeps {i : Instr} {s e : State} (h : Effect i s e) :
    e.ip = s.ip ∧ e.lastDir = s.lastDir ∧ e.runState = s.runState ∧ e.cause = s.cause ∧
    e.steps = s.steps ∧ e.grid = s.grid ∧ e.policy = s.policy := by
  cases i with
  | blank | noop | caseSign | stop | reverse => cases h; exact ⟨rfl, rfl, rfl, rfl, rfl, rfl, rfl⟩
  | load | store | add | sub | mul | imm | output =>
    obtain ⟨_, h⟩ := h
    first
      | (obtain ⟨-, rfl⟩ := h; exact ⟨rfl, rfl, rfl, rfl, rfl, rfl, rfl⟩)
      | (obtain ⟨-, -, rfl⟩ := h; exact ⟨rfl, rfl, rfl, rfl, rfl, rfl, rfl⟩)
  | input =>
    obtain ⟨_, _, -, -, rfl⟩ := h
    exact ⟨rfl, rfl, rfl, rfl, rfl, rfl, rfl⟩

/-- Everything a step that answers a next state can have done. -/
theorem step_cases {s t : State} (h : step s = .next t) :
    (s.runState ≠ .running ∧ t = s) ∨
    (s.runState = .running ∧ ∃ w e, s.fetch = some w ∧ decode w = .error e ∧
      t = s.takeFault .invalidOpcode) ∨
    (s.runState = .running ∧ ∃ w i, s.fetch = some w ∧ decode w = .ok i ∧ exec i s = .next t) := by
  unfold step at h
  split at h
  · next hs => cases h; exact .inl ⟨by simp [hs], rfl⟩
  · next hs => cases h; exact .inl ⟨by simp [hs], rfl⟩
  · next hs =>
    split at h
    · cases h
    · next w hw =>
      split at h
      · next e he => cases h; exact .inr (.inl ⟨hs, w, e, hw, he, rfl⟩)
      · next i hi => exact .inr (.inr ⟨hs, w, i, hw, hi, h⟩)

/-- The instruction of the last case of `step_cases` is the current one. -/
theorem current_of_decode {s : State} {w : CellWord} {i : Instr} (hw : s.fetch = some w)
    (hi : decode w = .ok i) : s.current = some i := by
  simp [State.current, hw, hi]

/-- A request of the current instruction that is never answered is what `State.Waiting` says. -/
theorem waiting_of_waits {s : State} {i : Instr} (hc : s.current = some i) (hp : paramOk i = true)
    (h : Waits i s) : s.Waiting := by
  have range : (digit i.param).isSome = true → 0x30 ≤ i.param.toNat ∧ i.param.toNat ≤ 0x39 := by
    intro hd
    have := mt digit_eq_none_iff.2 (Option.isSome_iff_ne_none.mp hd)
    omega
  rcases h with ⟨ho, hr⟩ | ⟨ho, hr⟩
  · obtain ⟨h1, h2⟩ := range (by cases i <;> simp_all [Instr.opcode, paramOk, paramForm])
    exact ⟨i, hc, h1, h2, .inl ⟨ho, State.inputReply_eq_never_iff.1 hr⟩⟩
  · obtain ⟨h1, h2⟩ := range (by cases i <;> simp_all [Instr.opcode, paramOk, paramForm])
    exact ⟨i, hc, h1, h2, .inr ⟨ho, State.outputReply_eq_never_iff.1 hr⟩⟩

/-! ### Runs -/

/-- A state whose step answers itself is the only one its runs reach. -/
theorem Runs.eq_of_step_self {s t : State} (h : step s = .next s) (hr : Runs s t) : t = s := by
  induction hr with
  | refl => rfl
  | tail _ hs ih => subst ih; exact Host.Outcome.next.inj (hs.symm.trans h)

/-- A running state whose step answers itself runs for ever. -/
theorem State.infinite_of_step_self {s : State} (hr : s.runState = .running)
    (h : step s = .next s) : s.infinite := by
  intro t ht
  cases Runs.eq_of_step_self h ht
  exact ⟨hr, s, h⟩

/-- A run that the model stops is not infinite: R258 does not define it. -/
theorem State.not_infinite_of_stop {s t : State} (hr : Runs s t) (h : ∀ u, step t ≠ .next u) :
    ¬ s.infinite :=
  fun hi => (hi t hr).2.elim h

end Sys2Proof.Machine
end

