-- ==== Sys2Proof/Laws/PerInstr.lean ====
section
/-! SUPPORT. The family `EncodeFields`: the three fields of an instruction's word are its opcode, its
arrow code and its param (spec R70). -/

namespace Sys2Proof.Laws.EncodeFields

/-- What the encoder puts into the fields of the word. -/
def Statement (i : Instr) : Prop :=
  opcField (encode i) = i.opcode ∧ arwField (encode i) = i.arrow.code ∧ prmField (encode i) = i.param

/-- Bit `k` of a word put together from its three fields. -/
theorem bit_of_append (o a : BitVec 4) (p : BitVec 8) (k : Nat) :
    BitVec.getLsbD (w := 16) (o ++ a ++ p) k =
      if k < 8 then p.getLsbD k
      else if k - 8 < 4 then a.getLsbD (k - 8) else o.getLsbD (k - 8 - 4) := by
  change BitVec.getLsbD (w := 4 + 4 + 8) (o ++ a ++ p) k = _
  rw [BitVec.getLsbD_append, BitVec.getLsbD_append]

/-- The three fields of a word put together from them. -/
theorem fields_of_append (o a : BitVec 4) (p : BitVec 8) :
    opcField (o ++ a ++ p) = o ∧ arwField (o ++ a ++ p) = a ∧ prmField (o ++ a ++ p) = p := by
  unfold opcField arwField prmField
  refine ⟨?_, ?_, ?_⟩ <;> apply BitVec.eq_of_getLsbD_eq <;> intro k hk <;>
    rw [BitVec.getLsbD_extractLsb', bit_of_append]
  · simp [hk, show ¬12 + k < 8 by omega, show ¬12 + k - 8 < 4 by omega,
      show 12 + k - 8 - 4 = k by omega]
  · simp [hk]
  · simp [hk]

theorem blank (a : Arrow) (p : Byte) : Statement (.blank a p) := fields_of_append _ _ _
theorem load (a : Arrow) (p : Byte) : Statement (.load a p) := fields_of_append _ _ _
theorem store (a : Arrow) (p : Byte) : Statement (.store a p) := fields_of_append _ _ _
theorem input (a : Arrow) (p : Byte) : Statement (.input a p) := fields_of_append _ _ _
theorem output (a : Arrow) (p : Byte) : Statement (.output a p) := fields_of_append _ _ _
theorem add (a : Arrow) (p : Byte) : Statement (.add a p) := fields_of_append _ _ _
theorem sub (a : Arrow) (p : Byte) : Statement (.sub a p) := fields_of_append _ _ _
theorem mul (a : Arrow) (p : Byte) : Statement (.mul a p) := fields_of_append _ _ _
theorem noop (a : Arrow) (p : Byte) : Statement (.noop a p) := fields_of_append _ _ _
theorem caseSign (a : Arrow) (p : Byte) : Statement (.caseSign a p) := fields_of_append _ _ _
theorem stop (a : Arrow) (p : Byte) : Statement (.stop a p) := fields_of_append _ _ _
theorem imm (a : Arrow) (p : Byte) : Statement (.imm a p) := fields_of_append _ _ _
theorem reverse (a : Arrow) (p : Byte) : Statement (.reverse a p) := fields_of_append _ _ _

end Sys2Proof.Laws.EncodeFields
end

