-- ==== Sys2Proof/Tests/Slice0.lean ====
section
/-! SUPPORT. The model's own tests: words written out from the spec's encodings, the ill-formed terms
each check refuses, vectors of 95_test_vectors.md (each test names its vector), and for every
statement with hypotheses a state that meets them. -/

namespace Sys2Proof.Tests.Slice0

open Sys2Proof Sys2Proof.Machine

/-! ## Small states -/

/-- The reset state on an `h` by `w` grid of padding words, with the IP on (r, c). -/
def at_ (h w r c : Nat) : State := { State.reset with grid := Grid.padding h w, ip := ⟨r, c⟩ }

/-- The state an instruction leads to; the reset state where it leads to none. -/
def after (i : Instr) (s : State) : State :=
  match exec i s with
  | .next t => t
  | .fault _ => State.reset
  | .refused _ => State.reset

/-- The state a step leads to; the reset state where it leads to none. -/
def stepped (s : State) : State :=
  match step s with
  | .next t => t
  | .fault _ => State.reset
  | .refused _ => State.reset

/-- The reset state about to run the word `w` on a one-cell grid. -/
def running (w : Nat) : State := State.reset.withFetchWord 16 w

/-- A signed value. -/
def val (v : Int) : Word := BitVec.ofInt 64 v

/-! ## Encoding: one word of every opcode, from `oooo aaaa pppppppp` (30_encoding.md section 7) -/

theorem test_decode_transfer :
    decode 0x1243 = .ok (.load (.toward .down) 0x43) ∧
    decode 0x2142 = .ok (.store (.toward .right) 0x42) ∧
    decode 0xB135 = .ok (.imm (.toward .right) 0x35) := ⟨rfl, rfl, rfl⟩

theorem test_decode_io :
    decode 0x3533 = .ok (.input (.toward .rightDown) 0x33) ∧
    decode 0x4330 = .ok (.output (.toward .left) 0x30) := ⟨rfl, rfl⟩

theorem test_decode_arith :
    decode 0x5344 = .ok (.add (.toward .left) 0x44) ∧
    decode 0x6342 = .ok (.sub (.toward .left) 0x42) ∧
    decode 0x7245 = .ok (.mul (.toward .down) 0x45) := ⟨rfl, rfl, rfl⟩

theorem test_decode_flow :
    decode 0x8020 = .ok (.noop (.toward .up) 0x20) ∧
    decode 0x9320 = .ok (.caseSign (.toward .left) 0x20) ∧
    decode 0xAF20 = .ok (.stop .absent 0x20) ∧
    decode 0xC320 = .ok (.reverse (.toward .left) 0x20) ∧
    decode 0x0F20 = .ok (.blank .absent 0x20) := ⟨rfl, rfl, rfl, rfl, rfl⟩

theorem test_decode_illegal_opcodes :
    decode 0xD000 = .error (.illegalOpcode 0xD) ∧ decode 0xE000 = .error (.illegalOpcode 0xE) ∧
    decode 0xFFFF = .error (.illegalOpcode 0xF) := ⟨rfl, rfl, rfl⟩

theorem test_encode :
    encode (.imm (.toward .right) 0x35) = 0xB135 ∧ encode (.output (.toward .left) 0x30) = 0x4330 ∧
    encode (.stop .absent 0x20) = 0xAF20 ∧ encode (.load (.toward .down) 0x43) = 0x1243 ∧
    encode (.blank .absent 0x20) = paddingWord ∧ encode (.noop (.malformed 1) 0x20) = 0x8920 := by
  decide

theorem test_arrow_codes :
    [0, 1, 2, 3, 4, 5, 6, 7, 15].map Arrow.ofCode =
      [.toward .up, .toward .right, .toward .down, .toward .left, .toward .rightUp,
       .toward .rightDown, .toward .leftDown, .toward .leftUp, .absent] := by decide

theorem test_table_word :
    decodeTableWord 16 0x9320 = some (.caseSign (.toward .left) 0x20) ∧
    decodeTableWord 16 0xD000 = none ∧ decodeTableWord 32 0x9320 = none := ⟨rfl, rfl, rfl⟩

theorem test_control_codes :
    State.reset.view.lastDir = 1 ∧ State.reset.view.runState = 0 ∧ State.reset.view.cause = 0 ∧
    RunState.halted.code = 1 ∧ RunState.faulted.code = 2 ∧ Cause.malformedProgram.code = 1 ∧
    Cause.invalidOpcode.code = 2 ∧ Cause.invalidParam.code = 3 ∧ Cause.noDirection.code = 4 := by
  decide

/-! ## The checks refuse what they are for -/

theorem test_wf_refuses_malformed_arrow :
    (Instr.load (.malformed 0) 0x41).wf = false ∧ (Instr.stop (.malformed 6) 0x20).wf = false ∧
    (Instr.load .absent 0x61).wf = true := by decide

/-- R252 (a): vector R2 (H = 0), and the other three bounds. -/
theorem test_load_refuses_size :
    Grid.loadOkWithin 4 4 ⟨0, 1, []⟩ = false ∧ Grid.loadOkWithin 4 4 ⟨1, 0, [[]]⟩ = false ∧
    Grid.loadOkWithin 1 4 ⟨2, 1, [[0xA020], [0xA020]]⟩ = false ∧
    Grid.loadOkWithin 4 1 ⟨1, 2, [[0xA020, 0xA020]]⟩ = false := by decide

/-- R252 (b). -/
theorem test_load_refuses_shape :
    Grid.loadOkWithin 4 4 ⟨2, 1, [[0xA020]]⟩ = false ∧
    Grid.loadOkWithin 4 4 ⟨1, 2, [[0xA020]]⟩ = false := by decide

/-- R252 (c): vector R1, and the illegal opcode of vector R4, which is no load error. -/
theorem test_load_arrows :
    Grid.loadOkWithin 4 4 ⟨1, 1, [[0xA920]]⟩ = false ∧
    Grid.loadOkWithin 4 4 ⟨1, 1, [[0xAE20]]⟩ = false ∧
    Grid.loadOkWithin 4 4 ⟨2, 1, [[0xA020], [0xE000]]⟩ = true := by decide

/-- Vector R1 through the whole reset command. -/
theorem test_reset_malformed :
    (State.reset.resetWith ⟨1, 1, [[0xA920]]⟩ [] []).cause = .malformedProgram ∧
    (State.reset.resetWith ⟨1, 1, [[0xA920]]⟩ [] []).runState = .faulted := by
  have h : Grid.loadOk ⟨1, 1, [[0xA920]]⟩ = false := by
    have h' : Grid.arrowsOk ⟨1, 1, [[0xA920]]⟩ = false := by decide
    rw [Grid.loadOk, Grid.loadOkWithin, h', Bool.and_false]
  rw [State.resetWith, h]
  exact ⟨rfl, rfl⟩

/-- Every one-cell grid with a legal arrow passes the load checks, whatever `H_MAX` and `W_MAX` are. -/
theorem oneCell_loadOk (w : CellWord) (h : (Arrow.ofCode (arwField w)).wf = true) :
    Grid.loadOk ⟨1, 1, [[w]]⟩ = true := by
  simp [Grid.loadOk, Grid.loadOkWithin, Config.hMax, Config.wMax, Grid.rectangular, Grid.arrowsOk, h]

/-! ## Instructions -/

/-- T1. -/
theorem test_load :
    (after (.load (.toward .down) 0x43) ((({ at_ 3 4 1 1 with acc := 9 }).setReg 2 3))).acc = 3 := by
  decide

/-- T7: LOAD 'a'. -/
theorem test_load_lower_case :
    (after (.load (.toward .right) 0x61) { at_ 3 4 1 1 with acc := 1 }).cause = .invalidParam ∧
    (after (.load (.toward .right) 0x61) { at_ 3 4 1 1 with acc := 1 }).acc = 1 := by decide

/-- T2. -/
theorem test_store :
    (after (.store (.toward .right) 0x42) { at_ 3 4 1 1 with acc := val (-4) }).regs[1] = val (-4) ∧
    (after (.store (.toward .right) 0x42) { at_ 3 4 1 1 with acc := val (-4) }).ip = ⟨1, 2⟩ := by
  decide

/-- T8: STORE '5'. -/
theorem test_store_digit :
    (after (.store (.toward .right) 0x35) { at_ 3 4 1 1 with acc := 1 }).runState = .faulted := by
  decide

/-- T5. -/
theorem test_imm : (after (.imm (.toward .up) 0x39) { at_ 3 4 1 1 with acc := 1 }).acc = 9 := by
  decide

/-- T10 and T11: the write stays made when there is no arrow, under either policy. -/
theorem test_imm_no_arrow :
    (after (.imm .absent 0x37) (at_ 3 4 1 1)).acc = 7 ∧
    (after (.imm .absent 0x37) (at_ 3 4 1 1)).cause = .noDirection ∧
    (after (.imm .absent 0x37) (at_ 3 4 1 1)).ip = ⟨1, 1⟩ ∧
    (after (.imm .absent 0x37) { at_ 3 4 1 1 with policy := .halt }).runState = .halted ∧
    (after (.imm .absent 0x37) { at_ 3 4 1 1 with policy := .halt }).acc = 7 := by decide

/-- I1. -/
theorem test_input :
    let s := { at_ 3 4 0 0 with env := ⟨[.answer (val (-2)), .answer 7], [], 0⟩ }
    (after (.input (.toward .rightDown) 0x33) s).acc = val (-2) ∧
    (after (.input (.toward .rightDown) 0x33) s).trace = [.received 3 (val (-2))] ∧
    (after (.input (.toward .rightDown) 0x33) s).ip = ⟨1, 1⟩ ∧
    (after (.input (.toward .rightDown) 0x33) s).env.inputs = [.answer 7] := by decide

/-- I6 and I4. -/
theorem test_input_waits_or_faults :
    let s := { at_ 3 4 0 0 with env := ⟨[.never], [], 0⟩ }
    after (.input (.toward .right) 0x30) s = s ∧
    (after (.input (.toward .right) 0x41) s).cause = .invalidParam ∧
    (after (.input (.toward .right) 0x41) s).trace = [] := by decide

/-- I2. -/
theorem test_output :
    (after (.output (.toward .left) 0x30) { at_ 3 4 0 0 with acc := 5 }).trace = [.delivered 0 5] ∧
    (after (.output (.toward .left) 0x30) { at_ 3 4 0 0 with acc := 5 }).ip = ⟨0, 3⟩ := by decide

/-- I5: delivered, then NO_DIRECTION. -/
theorem test_output_no_arrow :
    (after (.output .absent 0x32) { at_ 3 4 0 0 with acc := 5 }).trace = [.delivered 2 5] ∧
    (after (.output .absent 0x32) { at_ 3 4 0 0 with acc := 5 }).cause = .noDirection := by decide

/-- A2 and A3. -/
theorem test_add :
    (after (.add (.toward .left) 0x44) (({ at_ 3 4 1 1 with acc := val (2 ^ 63 - 1) }).setReg 3 1)).acc
      = val (-2 ^ 63) ∧
    (after (.add (.toward .left) 0x44)
      (({ at_ 3 4 1 1 with acc := val (-2 ^ 63) }).setReg 3 (val (-1)))).acc = val (2 ^ 63 - 1) := by
  decide

/-- A6 and A8: ACC minus the register. -/
theorem test_sub :
    (after (.sub (.toward .left) 0x42) (({ at_ 3 4 1 1 with acc := 1 }).setReg 1 3)).acc = val (-2) ∧
    (after (.sub (.toward .left) 0x42) ((at_ 3 4 1 1).setReg 1 (val (-2 ^ 63)))).acc
      = val (-2 ^ 63) := by decide

/-- A9 and A12. -/
theorem test_mul :
    (after (.mul (.toward .down) 0x45) (({ at_ 3 4 1 1 with acc := val (-3) }).setReg 4 4)).acc
      = val (-12) ∧
    (after (.mul (.toward .down) 0x45)
      (({ at_ 3 4 1 1 with acc := val (-2 ^ 63) }).setReg 4 (val (-1)))).acc = val (-2 ^ 63) := by
  decide

/-- A15 to A18: the wrap at 8 bits. -/
theorem test_wrap_at_8 :
    wrapAt 8 (127 + 1) = -128 ∧ wrapAt 8 (-128 - 1) = 127 ∧ wrapAt 8 (16 * 16) = 0 ∧
    wrapAt 8 (-128 * -1) = -128 := by decide

/-- F1 and F2. -/
theorem test_noop :
    (after (.noop (.toward .up) 0x20) (at_ 4 5 1 4)).ip = ⟨0, 4⟩ ∧
    (after (.noop (.toward .up) 0x20) (at_ 4 5 1 4)).lastDir = .up ∧
    (after (.noop .absent 0x20) (at_ 4 5 1 4)).cause = .noDirection ∧
    (after (.noop .absent 0x20) (at_ 4 5 1 4)).ip = ⟨1, 4⟩ := by decide

/-- L1-4 with REV = 0, F3 and F4. -/
theorem test_case :
    (after (.caseSign (.toward .left) 0x20) { at_ 3 3 1 1 with acc := val (-2 ^ 63) }).lastDir = .up ∧
    (after (.caseSign (.toward .left) 0x20) { at_ 3 3 1 1 with acc := 0 }).lastDir = .right ∧
    (after (.caseSign .absent 0x20) { at_ 3 3 1 1 with acc := val (2 ^ 63 - 1) }).lastDir = .down := by
  decide

/-- L1-4 with REV = 1. -/
theorem test_case_reversed :
    (after (.caseSign .absent 0x20) { at_ 3 3 1 1 with acc := 0, rev := true }).lastDir = .left := by
  decide

/-- F5. -/
theorem test_stop :
    (after (.stop (.toward .right) 0x20) (at_ 3 3 1 1)).runState = .halted ∧
    (after (.stop (.toward .right) 0x20) (at_ 3 3 1 1)).ip = ⟨1, 1⟩ ∧
    (after (.stop (.toward .right) 0x20) (at_ 3 3 1 1)).steps = 1 := by decide

/-- F6 and F7. -/
theorem test_reverse :
    (after (.reverse (.toward .left) 0x20) (at_ 1 3 0 0)).ip = ⟨0, 1⟩ ∧
    (after (.reverse (.toward .left) 0x20) (at_ 1 3 0 0)).rev = true ∧
    (after (.reverse (.toward .left) 0x20) { at_ 1 3 0 0 with rev := true }).ip = ⟨0, 2⟩ := by decide

/-- F8: the flag stays inverted when there is no arrow. -/
theorem test_reverse_no_arrow :
    (after (.reverse .absent 0x20) (at_ 1 3 0 0)).rev = true ∧
    (after (.reverse .absent 0x20) (at_ 1 3 0 0)).cause = .noDirection := by decide

/-- F9 and F12. -/
theorem test_blank :
    (after (.blank .absent 0x20) { at_ 3 6 2 5 with lastDir := .down }).ip = ⟨0, 5⟩ ∧
    (after (.blank (.toward .left) 0x41) { at_ 3 6 2 5 with lastDir := .up }).ip = ⟨1, 5⟩ := by decide

/-- F10. -/
theorem test_blank_bounces :
    (after (.blank .absent 0x20) { at_ 1 2 0 1 with rev := true }).ip = ⟨0, 0⟩ ∧
    (after (.blank .absent 0x20) { at_ 1 2 0 1 with rev := true }).lastDir = .left := by decide

/-! ## Movement and the step -/

/-- S1, S3 and S5. -/
theorem test_moves :
    ((at_ 3 3 0 0).move .leftUp).ip = ⟨2, 2⟩ ∧
    ({ at_ 3 3 0 2 with rev := true }.move .leftDown).ip = ⟨2, 0⟩ ∧
    ((at_ 1 5 0 0).move .down).ip = ⟨0, 0⟩ := by decide

/-- The check order of R207: 0xDF61 gives CAUSE 2, 0x1F61 gives CAUSE 3. -/
theorem test_check_order :
    (stepped (running 0xDF61)).cause.code = 2 ∧ (stepped (running 0x1F61)).cause.code = 3 := by decide

/-- R6: no step in HALTED. -/
theorem test_halted_takes_no_step :
    step { running 0xB135 with runState := .halted } =
      .next { running 0xB135 with runState := .halted } := rfl

/-- R106, third branch: the fault comes after the effect. -/
theorem test_malformed_arrow_after_effect :
    (stepped (running 0xB935)).cause = .malformedProgram ∧ (stepped (running 0xB935)).acc = 5 ∧
    (stepped (running 0xAE20)).runState = .halted := by decide

/-! ## Program text and assembly -/

/-- The characters of the tests' own `OPCODE_CHAR` (R8 leaves it open). -/
def chars : List Char := "lsio+-*.?!#~".toList

/-- L1-8: a short line is padded; '8' and a broken length are malformed (R80, R81). -/
theorem test_load_text :
    loadText chars ["#51o0 !  ".toList, ".a7".toList] =
      some ⟨2, 3, [[0xB135, 0x4F30, 0xAF20], [0x8761, 0x0F20, 0x0F20]]⟩ ∧
    loadText chars ["#58".toList] = none ∧ loadText chars ["#5".toList] = none ∧
    loadText chars [[], []] = none ∧ loadText chars [] = none ∧
    fieldWord chars ⟨'@', '5', ' '⟩ = some 0xFF35 ∧ opcodeCharsOk chars = true := by decide

/-- The examples of 30_encoding.md section 7, and a lower-case mnemonic (R84). -/
theorem test_assemble :
    assemble "IMM 5 -> RIGHT".toList = some 0xB135 ∧
    assemble "output 0 -> LEFT".toList = some 0x4330 ∧ assemble "STOP".toList = some 0xAF20 ∧
    assemble "LOAD C -> DOWN".toList = some 0x1243 ∧ assemble "LOAD c".toList = none ∧
    assemble "STOP 1".toList = none := by decide

/-- P2: the listing and its words. -/
theorem test_assemble_grid :
    assembleGrid ["grid 2 x 2".toList, "(0,0) IMM 5 -> RIGHT".toList,
        "(0,1) OUTPUT 0 -> RIGHTDOWN".toList, "(1,0) STOP".toList] =
      some ⟨2, 2, [[0xB135, 0x4530], [0xAF20, 0x0F20]]⟩ ∧
    assembleGrid ["grid 1 x 1".toList, "(1,0) STOP".toList] = none := by decide

/-! ## Witnesses: states and operands that meet a statement's hypotheses together -/

theorem witness_EncodeAfterDecodeGivesWord :
    decode 0xB135 = .ok (.imm (.toward .right) 0x35) := rfl

theorem witness_OpcodeFieldAloneSelectsInstruction :
    (0xCFFF#16).toNat / 4096 ≤ 0xC ∧ 0xD ≤ (0xD000#16).toNat / 4096 := by decide

theorem witness_MalformedArrowIsRefusedAtReset :
    [0xA820#16, 0xAE20#16] ∈ (Grid.mk 1 2 [[0xA820, 0xAE20]]).rows ∧
    0xA820#16 ∈ [0xA820#16, 0xAE20#16] ∧ 8 ≤ ((0xA820#16).extractLsb' 8 4).toNat ∧
    0xAE20#16 ∈ [0xA820#16, 0xAE20#16] ∧ ((0xAE20#16).extractLsb' 8 4).toNat ≤ 14 := by decide

/-- LOAD, STORE, ADD, SUB, MUL: the boundary characters of the register form. -/
theorem witness_register_params :
    (0x41#8).toNat = 0x41 + (0 : RegIdx).val ∧ (0x5A#8).toNat = 0x41 + (25 : RegIdx).val ∧
    (0x40#8).toNat < 0x41 ∧ 0x5A < (0x5B#8).toNat := by decide

/-- INPUT, OUTPUT, IMM: the boundary characters of the digit form. -/
theorem witness_digit_params :
    (0x30#8).toNat = 0x30 + (0 : Port).val ∧ (0x39#8).toNat = 0x30 + (9 : Port).val ∧
    (0x2F#8).toNat < 0x30 ∧ 0x39 < (0x3A#8).toNat := by decide

theorem witness_LoadCopiesRegisterToAccumulator : (0x1FFF#16).extractLsb' 12 4 = 0x1#4 := by decide
theorem witness_StoreCopiesAccumulatorToRegister : (0x2FFF#16).extractLsb' 12 4 = 0x2#4 := by decide
theorem witness_ImmSetsAccumulatorToDigit : (0xBFFF#16).extractLsb' 12 4 = 0xB#4 := by decide
theorem witness_AddWrapsExactSum : (0x5FFF#16).extractLsb' 12 4 = 0x5#4 := by decide
theorem witness_SubWrapsExactDifference : (0x6FFF#16).extractLsb' 12 4 = 0x6#4 := by decide
theorem witness_MulWrapsExactProduct : (0x7FFF#16).extractLsb' 12 4 = 0x7#4 := by decide
theorem witness_NoopOnlyFollowsItsArrow : (0x8FFF#16).extractLsb' 12 4 = 0x8#4 := by decide
theorem witness_ReverseInvertsFlagThenFollowsArrow : (0xCFFF#16).extractLsb' 12 4 = 0xC#4 := by decide
theorem witness_BlankMovesInLastDirection : (0x0FFF#16).extractLsb' 12 4 = 0x0#4 := by decide

theorem witness_InputAnswersIntoAccumulator :
    { State.reset.env with inputs := [.answer 1] }.inputs = .answer 1 :: [] ∧
    State.reset.env.inputs = [] ∧
    { State.reset.env with inputs := [.never] }.inputs = .never :: [] := by decide

theorem witness_OutputDeliversAccumulator :
    { State.reset.env with outputs := [.accept] }.outputs = .accept :: [] ∧
    State.reset.env.outputs = [] ∧
    { State.reset.env with outputs := [.never] }.outputs = .never :: [] := by decide

theorem witness_CaseMovesBySignOfAccumulator :
    (0x9FFF#16).extractLsb' 12 4 = 0x9#4 ∧ { State.reset with acc := val (-1) }.acc.toInt < 0 ∧
    State.reset.acc.toInt = 0 ∧ 0 < { State.reset with acc := 1 }.acc.toInt := by decide

/-- On a cell of a grid of one row and one column (S4). -/
theorem witness_MoveStaysOnTorus :
    (at_ 1 1 0 0).InGrid ∧ (at_ 3 4 2 3).InGrid :=
  ⟨⟨by decide, by decide⟩, by decide, by decide⟩

theorem witness_EdgesWrapAround : 2 < (Grid.padding 3 4).height ∧ 3 < (Grid.padding 3 4).width := by
  decide

theorem witness_ReverseParityDecidesMovement :
    ∃ t u : State, exec (.reverse (.toward .left) 0x20) (at_ 1 3 0 0) = .next t ∧
      exec (.noop (.toward .right) 0x20) t = .next u := ⟨_, _, rfl, rfl⟩

theorem witness_BlankGoesStraightOrBouncesBack :
    (at_ 1 2 0 1).InGrid ∧ (at_ 1 2 0 1).rev = false ∧ ({ at_ 1 2 0 1 with rev := true }).rev = true ∧
    ∃ t u : State, exec (.blank .absent 0x20) { at_ 1 2 0 1 with rev := true } = .next t ∧
      exec (.blank .absent 0x20) t = .next u := ⟨⟨by decide, by decide⟩, rfl, rfl, _, _, rfl, rfl⟩

theorem witness_StepRunsDecodedInstruction :
    (running 0xB135).runState = .running ∧ (running 0xB135).fetch = some 0xB135 ∧
    decode 0xB135 = .ok (.imm (.toward .right) 0x35) := ⟨rfl, rfl, rfl⟩

theorem witness_IllegalOpcodeFaultsBeforeAnyEffect :
    (running 0xD000).runState = .running ∧ (running 0xD000).fetch = some 0xD000 ∧
    0xD ≤ ((0xD000#16).extractLsb' 12 4).toNat := by decide

theorem witness_InvalidParamFaultsBeforeAnyEffect :
    (Instr.mul .absent 0x5B).opcode ∈ ([0x1, 0x2, 0x5, 0x6, 0x7] : List (BitVec 4)) ∧
    0x5A < (Instr.mul .absent 0x5B).param.toNat ∧
    (Instr.imm .absent 0x2F).opcode ∈ ([0x3, 0x4, 0xB] : List (BitVec 4)) ∧
    (Instr.imm .absent 0x2F).param.toNat < 0x30 := by decide

/-- A loaded state: the one-cell grid of any word with a legal arrow. -/
theorem running_loaded (w : CellWord) (h : (Arrow.ofCode (arwField w)).wf = true) :
    ({ State.reset with grid := ⟨1, 1, [[w]]⟩ }).Loaded :=
  ⟨oneCell_loadOk w h, Nat.zero_lt_one, Nat.zero_lt_one⟩

theorem witness_FetchAlwaysSucceeds : ({ State.reset with grid := ⟨1, 1, [[0x8120]]⟩ }).Loaded :=
  running_loaded _ (by decide)

theorem witness_LoadedBlockAlwaysSteps :
    ({ State.reset with grid := ⟨1, 1, [[0x3130]]⟩ }).Loaded ∧
    InputReply.failure ∉ State.reset.env.inputs ∧ OutputReply.failure ∉ State.reset.env.outputs :=
  ⟨running_loaded _ (by decide), by decide, by decide⟩

theorem witness_BootedBlockNeverWaits :
    let s : State :=
      { State.reset with grid := ⟨1, 1, [[0x3130]]⟩, env := ⟨[.answer 3], [.accept], 0⟩ }
    s.Loaded ∧ s.env.Obliging ∧ s.runState = .running :=
  ⟨⟨oneCell_loadOk _ (by decide), Nat.zero_lt_one, Nat.zero_lt_one⟩, ⟨by simp, by simp⟩, rfl⟩

theorem witness_FailingEnvironmentIsRefused :
    0x30 ≤ (0x30#8).toNat ∧ (0x39#8).toNat ≤ 0x39 ∧
    (Env.mk [.failure] [.failure] 0).inputs = .failure :: [] ∧
    (Env.mk [.failure] [.failure] 0).outputs = .failure :: [] := by decide

theorem witness_UnansweredRequestWaitsForEver :
    (running 0x3130).runState = .running ∧
    (running 0x3130).current = some (.input (.toward .right) 0x30) ∧
    (running 0x4139).current = some (.output (.toward .right) 0x39) ∧
    (Env.mk [.never] [.never] 0).inputs.head? = some .never ∧
    (Env.mk [.never] [.never] 0).outputs.head? = some .never := by decide

theorem witness_StoppedBlockStaysAsItIs :
    ({ running 0xB135 with runState := .faulted }).runState ≠ .running := by decide

theorem witness_OnlyStoreWritesRegisters :
    ∃ t, step { running 0x2142 with acc := 5 } = .next t ∧
      t.regs[1] ≠ ({ running 0x2142 with acc := 5 }).regs[1] := ⟨_, rfl, by decide⟩

theorem witness_OnlyListedInstructionsWriteAccumulator :
    ∃ t, step (running 0xB135) = .next t ∧ t.acc ≠ (running 0xB135).acc := ⟨_, rfl, by decide⟩

theorem witness_OnlyReverseWritesReversalFlag :
    ∃ t, step (running 0xC320) = .next t ∧ t.rev ≠ (running 0xC320).rev := ⟨_, rfl, by decide⟩

/-- A state that lists no reply does not wait. -/
theorem not_waiting (w : Nat) : ¬ (running w).Waiting := by
  have hi : (running w).env.inputs = [] := rfl
  have ho : (running w).env.outputs = [] := rfl
  rintro ⟨i, -, -, -, ⟨-, h⟩ | ⟨-, h⟩⟩ <;> simp [hi, ho] at h

theorem witness_TraceRecordsExactlyThePortRequests :
    (∃ t, step (running 0x4330) = .next t ∧ t.trace ≠ (running 0x4330).trace) ∧
    (running 0x4330).runState = .running ∧ ¬ (running 0x4330).Waiting ∧
    (running 0x4330).current = some (.output (.toward .left) 0x30) ∧
    (0x30#8).toNat = 0x30 + (0 : Port).val ∧ ¬ (running 0x3F39).Waiting ∧
    (running 0x3F39).current = some (.input .absent 0x39) ∧
    (0x39#8).toNat = 0x30 + (9 : Port).val ∧ ∃ t, step (running 0x3F39) = .next t :=
  ⟨⟨_, rfl, by decide⟩, rfl, not_waiting _, rfl, rfl, not_waiting _, rfl, rfl, _, rfl⟩

theorem witness_StopAloneHaltsAndStaysInPlace :
    (0xAFFF#16).extractLsb' 12 4 = 0xA#4 ∧
    ∃ t, (running 0xAF20).runState = .running ∧ (running 0xAF20).policy = .fault ∧
      step (running 0xAF20) = .next t ∧ t.runState = .halted := ⟨by decide, _, rfl, rfl, rfl, rfl⟩

theorem witness_OnlyResolvedDirectionMoves :
    ∃ t, step (running 0x8020) = .next t ∧ t.lastDir ≠ (running 0x8020).lastDir :=
  ⟨_, rfl, by decide⟩

/-- The reset state about to run the word `w` where no request is ever answered. -/
def unanswered (w : Nat) : State := { running w with env := ⟨[.never], [.never], 0⟩ }

theorem unanswered_waiting : (unanswered 0x3130).Waiting ∧ (unanswered 0x4139).Waiting :=
  ⟨⟨_, rfl, by decide, by decide, .inl ⟨rfl, rfl⟩⟩, _, rfl, by decide, by decide, .inr ⟨rfl, rfl⟩⟩

/-- A fault that does not count, a move that does, and a wait. -/
theorem witness_StepsCountsMovesAndHalts :
    (∃ t, step (running 0x8F20) = .next t ∧ t.runState = .faulted) ∧
    (∃ t, step (running 0x8020) = .next t ∧ t.runState ≠ .faulted ∧ ¬ (running 0x8020).Waiting) ∧
    (unanswered 0x3130).Waiting ∧ ∃ t, step (unanswered 0x3130) = .next t :=
  ⟨⟨_, rfl, rfl⟩, ⟨_, rfl, by decide, not_waiting _⟩, unanswered_waiting.1, _, rfl⟩

/-- R258: a wait without end is an infinite run; a run that a failing environment stops, and one
without a program, are not. -/
theorem test_infinite :
    (unanswered 0x3130).infinite ∧
    ¬ ({ running 0x3130 with env := ⟨[.failure], [], 0⟩ }).infinite ∧ ¬ State.reset.infinite :=
  ⟨State.infinite_of_step_self rfl rfl, State.not_infinite_of_stop (.refl _) (fun _ h => nomatch h),
    State.not_infinite_of_stop (.refl _) (fun _ h => nomatch h)⟩

theorem witness_FaultKeepsStateAtFaultingCell :
    (∃ t, step (running 0xBF37) = .next t ∧ t.runState = .faulted ∧ t.cause = .noDirection) ∧
    (∃ t, step (running 0xB141) = .next t ∧ t.runState = .faulted ∧ t.cause = .invalidParam) ∧
    ∃ t, step (running 0xE000) = .next t ∧ t.runState = .faulted ∧ t.cause = .invalidOpcode :=
  ⟨⟨_, rfl, rfl, rfl⟩, ⟨_, rfl, rfl, rfl⟩, _, rfl, rfl, rfl⟩

theorem witness_FirstFailingCheckNamesTheCause :
    let s : State := { State.reset with grid := ⟨1, 1, [[0x1F61]]⟩ }
    s.Loaded ∧ s.runState = .running ∧ s.fetch = some 0x1F61 ∧
    ∃ t, step s = .next t ∧ t.runState = .faulted :=
  ⟨running_loaded _ (by decide), rfl, rfl, _, rfl, rfl⟩

theorem witness_GridIsAsAtReset :
    Runs (State.reset.resetWith ⟨1, 1, [[0xAF20]]⟩ [] [])
      (State.reset.resetWith ⟨1, 1, [[0xAF20]]⟩ [] []) := .refl _

theorem witness_OnlyBlankReadsLastDirection :
    (Instr.noop (.toward .up) 0x20).opcode ≠ 0x0 ∧
    ∃ t, exec (.noop (.toward .up) 0x20) (at_ 3 3 1 1) = .next t := ⟨by decide, _, rfl⟩

theorem witness_ReversalFlagOnlySteersMovement :
    ∃ t, exec (.reverse (.toward .up) 0x20) (at_ 3 3 1 1) = .next t := ⟨_, rfl⟩

theorem witness_AccumulatorInstructionsFrame :
    ∃ t, exec (.add (.toward .up) 0x41) (at_ 3 3 1 1) = .next t := ⟨_, rfl⟩

theorem witness_StoreFrame :
    ∃ t, exec (.store .absent 0x41) (at_ 3 3 1 1) = .next t := ⟨_, rfl⟩

theorem witness_PortInstructionsFrame :
    ∃ t, exec (.output (.toward .up) 0x30) (at_ 3 3 1 1) = .next t := ⟨_, rfl⟩

theorem witness_FlowInstructionsFrame :
    (Instr.stop .absent 0x20).opcode ∈ ([0x0, 0x8, 0x9, 0xA, 0xC] : List (BitVec 4)) ∧
    ∃ t, exec (.stop .absent 0x20) (at_ 3 3 1 1) = .next t := ⟨by decide, _, rfl⟩

/-- A program that passes the load checks, and one that does not. -/
theorem witness_ResetSetsEveryResetValue :
    Grid.loadOk ⟨1, 1, [[0xAF20]]⟩ = true ∧ Grid.loadOk ⟨0, 0, []⟩ = false := by
  refine ⟨oneCell_loadOk _ (by decide), ?_⟩
  simp [Grid.loadOk, Grid.loadOkWithin]

theorem witness_FirstInstructionIsCellZero : Grid.loadOk ⟨1, 1, [[0xAF20]]⟩ = true :=
  oneCell_loadOk _ (by decide)

theorem witness_StepKeepsInvariant :
    let s : State := { State.reset with grid := ⟨1, 1, [[0x8020]]⟩ }
    s.Inv ∧ s.Loaded ∧ ∃ t, step s = .next t ∧ t.runState = .running :=
  ⟨⟨fun _ => ⟨by decide, by decide⟩, by decide⟩, running_loaded _ (by decide), _, rfl, rfl⟩

theorem witness_ReachableStatesMeetInvariant :
    Reachable (State.reset.resetWith ⟨1, 1, [[0xAF20]]⟩ [] []) := ⟨_, _, _, _, .refl _⟩

theorem witness_InstructionPointerFitsItsFields :
    ({ State.reset with grid := ⟨1, 1, [[0x8020]]⟩ }).Loaded := running_loaded _ (by decide)

theorem witness_RunOfAStoppedBlockChangesNothing :
    (Session.mk { State.reset with runState := .halted } true).core.runState = .halted ∧
    (Session.mk { State.reset with runState := .faulted } true).core.runState = .faulted := by decide

theorem witness_HostActsOnlyBetweenRuns :
    (Session.mk (running 0xB135) true).runIssued = true ∧
    (Session.mk (running 0xB135) true).core.runState = .running ∧
    (Session.mk (running 0xB135) false).runIssued = false ∧
    (Session.mk (running 0xB135) false).core.runState = .running ∧
    ∃ t, step (running 0xB135) = .next t := ⟨rfl, rfl, rfl, rfl, _, rfl⟩

/-- R206: after a fault the host reads the faulting word in the grid at the IP. -/
theorem test_host_reads_faulting_word :
    let b : Session := ⟨stepped (running 0x1F61), true⟩
    ∃ v, b.hostRead = some v ∧ v.cause = 3 ∧ v.grid.cell v.ip = some 0x1F61 := ⟨_, rfl, rfl, rfl⟩

theorem witness_LoadedTextPassesShapeChecks :
    ∃ g, loadText chars ["#51".toList, ".a7o0 ".toList] = some g := ⟨_, rfl⟩

/-- Cell (0, 1) is past the end of line 0, and cell (1, 1) is the second field of line 1. -/
theorem witness_LoadedTextPlacesFieldsAndPadding :
    (∃ g, loadText chars ["#51".toList, ".a7o0 ".toList] = some g ∧ 1 < g.width) ∧
    "#51".toList.length ≤ 3 * 1 ∧ (".a7o0 ".toList)[3 * 1]? = some 'o' ∧
    (".a7o0 ".toList)[3 * 1 + 1]? = some '0' ∧ (".a7o0 ".toList)[3 * 1 + 2]? = some ' ' := by
  refine ⟨⟨_, rfl, by decide⟩, ?_⟩
  decide

end Sys2Proof.Tests.Slice0
end

