-- ==== Sys2Proof/Proofs/Decode.lean ====
section
/-! PROOF. What the decoder answers for each code of OPC (spec R71, R75, R76). -/

namespace Sys2Proof

/-- OPC is the word's four high bits (R70). -/
theorem toNat_opcField (w : CellWord) : (opcField w).toNat = w.toNat / 4096 := by
  have := w.isLt
  rw [opcField, BitVec.extractLsb'_toNat, Nat.shiftRight_eq_div_pow]
  omega

/-- All that `decode` can answer: up to OPC 0xC the instruction that carries the word's three fields,
above it the refusal by name. -/
theorem decode_cases (w : CellWord) :
    ((opcField w).toNat ≤ 0xC ∧ ∃ i, decode w = .ok i ∧ i.opcode = opcField w ∧
      i.arrow = Arrow.ofCode (arwField w) ∧ i.param = prmField w) ∨
    (0xD ≤ (opcField w).toNat ∧ decode w = .error (.illegalOpcode (opcField w))) := by
  unfold decode
  split
  case h_14 =>
    refine .inr ⟨?_, rfl⟩
    by_contra hlt
    interval_cases (opcField w).toNat <;> contradiction
  all_goals
    next hopc => exact .inl ⟨by omega, _, rfl, BitVec.eq_of_toNat_eq hopc.symm, rfl, rfl⟩

/-- Settles O3: OPC is the word's number over 4096, and `decode_cases` reads no other field to choose
the opcode. -/
theorem opcodeFieldAloneSelectsInstruction : Obligations.OpcodeFieldAloneSelectsInstruction := by
  intro w
  rw [← toNat_opcField]
  obtain ⟨hle, i, hi, hopc, -, -⟩ | ⟨hge, herr⟩ := decode_cases w
  · exact ⟨fun _ => ⟨i, hi, congrArg BitVec.toNat hopc⟩, fun hge => by omega⟩
  · exact ⟨fun hle => by omega, fun _ => herr⟩

end Sys2Proof
end

