-- ==== Sys2Proof/Proofs/Reset.lean ====
section
/-! PROOF. The load check on arrow codes, and the reset command on a program that fails the load
checks (spec R77, R250, R252). -/

namespace Sys2Proof

/-- The legal codes of ARW are 0 to 7 and 15 (R72, R77). -/
theorem Arrow.wf_ofCode_iff : ∀ {a : BitVec 4},
    (Arrow.ofCode a).wf = true ↔ a.toNat ≤ 7 ∨ a.toNat = 15 := by
  decide

end Sys2Proof

namespace Sys2Proof.Machine

theorem Grid.arrowsOk_iff {g : Grid} : g.arrowsOk = true ↔
    ∀ r ∈ g.rows, ∀ w ∈ r, (arwField w).toNat ≤ 7 ∨ (arwField w).toNat = 15 := by
  simp only [Grid.arrowsOk, List.all_eq_true, Arrow.wf_ofCode_iff]

theorem Grid.loadOk_arrowsOk {g : Grid} (h : g.loadOk = true) : g.arrowsOk = true := by
  simp only [Grid.loadOk, Grid.loadOkWithin, Bool.and_eq_true] at h
  exact h.2

theorem State.resetWith_of_not_loadOk {g : Grid} (h : ¬ g.loadOk = true) (s : State)
    (inputs : List InputReply) (outputs : List OutputReply) :
    s.resetWith g inputs outputs = (s.bound g inputs outputs).takeFault .malformedProgram :=
  if_neg h

/-- Settles O5: a malformed code fails the load check on arrows, so the reset command ends in its
fault. -/
theorem malformedArrowIsRefusedAtReset : Obligations.MalformedArrowIsRefusedAtReset := by
  intro s g inputs outputs r w hr hw h8 h14
  have hload : ¬ g.loadOk = true := by
    intro hok
    have harw := Grid.arrowsOk_iff.mp (Grid.loadOk_arrowsOk hok) r hr w hw
    rw [arwField] at harw
    omega
  rw [State.resetWith_of_not_loadOk hload]
  exact ⟨State.takeFault_runState .., State.takeFault_cause ..⟩

end Sys2Proof.Machine
end

