-- ==== Sys2Proof/Proofs/Movement.lean ====
section
/-! PROOF. The direction tables, and the cell a move ends on (spec R107, R108, R112, R119). -/

namespace Sys2Proof.Machine

/-! ### The tables of `opp` and `delta` -/

theorem code_opp (d : Direction) : (opp d).code = d.code ^^^ 2 := by
  cases d <;> decide

@[simp] theorem opp_opp (d : Direction) : opp (opp d) = d := by
  cases d <;> rfl

@[simp] theorem rowDelta_opp (d : Direction) : rowDelta (opp d) = -rowDelta d := by
  cases d <;> rfl

@[simp] theorem colDelta_opp (d : Direction) : colDelta (opp d) = -colDelta d := by
  cases d <;> rfl

theorem rowDelta_range (d : Direction) : -1 ≤ rowDelta d ∧ rowDelta d ≤ 1 := by
  cases d <;> decide

theorem colDelta_range (d : Direction) : -1 ≤ colDelta d ∧ colDelta d ≤ 1 := by
  cases d <;> decide

/-- The direction with a given delta, the inverse of the table of R107. -/
def directionOfDelta : Int × Int → Direction
  | (-1, 0) => .up
  | (0, 1) => .right
  | (1, 0) => .down
  | (0, -1) => .left
  | (-1, 1) => .rightUp
  | (1, 1) => .rightDown
  | (1, -1) => .leftDown
  | _ => .leftUp

theorem directionOfDelta_delta (d : Direction) :
    directionOfDelta (rowDelta d, colDelta d) = d := by
  cases d <;> rfl

/-- Distinct directions have distinct deltas. -/
theorem eq_of_delta_eq {d e : Direction} (hrow : rowDelta d = rowDelta e)
    (hcol : colDelta d = colDelta e) : d = e := by
  rw [← directionOfDelta_delta d, hrow, hcol, directionOfDelta_delta]

/-- Settles O20, table by table. -/
theorem directionTablesAreAntipodal : Obligations.DirectionTablesAreAntipodal := by
  refine ⟨fun d => ?_, fun _ _ => eq_of_delta_eq, by decide⟩
  obtain ⟨hrow₁, hrow₂⟩ := rowDelta_range d
  obtain ⟨hcol₁, hcol₂⟩ := colDelta_range d
  exact ⟨code_opp d, opp_opp d, rowDelta_opp d, colDelta_opp d, hrow₁, hrow₂, hcol₁, hcol₂⟩

/-! ### The torus -/

/-- The floor-mod of R13 changes a coordinate by a multiple of the grid's size. -/
theorem dvd_wrapCoord_sub {n : Nat} (h : 0 < n) (x : Nat) (d : Int) :
    (n : Int) ∣ wrapCoord x d n - (x + d) := by
  rw [cast_wrapCoord h]
  exact (Int.mod_modEq _ _).symm.dvd

theorem exec_noop (a : Arrow) (p : Byte) (s : State) :
    exec (.noop a p) s = .next (s.conclude (dirReq a)) := rfl

/-- Settles O21: `resolve` gives the direction, and the floor-mod keeps each coordinate in range and
congruent to the displaced one. -/
theorem moveStaysOnTorus : Obligations.MoveStaysOnTorus := by
  intro s d hin
  have ⟨hrow, hcol⟩ := hin
  exact ⟨State.move_inGrid hin d, dvd_wrapCoord_sub (Nat.zero_lt_of_lt hrow) ..,
    dvd_wrapCoord_sub (Nat.zero_lt_of_lt hcol) .., fun p => exec_noop (.toward d) p s⟩

end Sys2Proof.Machine
end

