-- ==== Sys2Proof/Proofs/Step.lean ====
section
/-! PROOF. The opcode check of the step cycle (spec R101 to R103). -/

namespace Sys2Proof.Machine

theorem step_of_decode_error {s : State} {w : CellWord} {e : DecodeError}
    (hrun : s.runState = .running) (hfetch : s.fetch = some w) (hdecode : decode w = .error e) :
    step s = .next (s.takeFault .invalidOpcode) := by
  simp [step, hrun, hfetch, hdecode]

theorem State.takeFault_ending (s : State) (c : Cause) : FaultEnding c s (s.takeFault c) := rfl

/-- Settles O26: an OPC above 0xC leaves `decode` its refusal alone, which the step turns into the
fault. -/
theorem illegalOpcodeFaultsBeforeAnyEffect : Obligations.IllegalOpcodeFaultsBeforeAnyEffect := by
  intro s w hrun hfetch hopc
  obtain ⟨hle, -⟩ | ⟨-, herr⟩ := decode_cases w
  · rw [opcField] at hle
    omega
  · exact ⟨_, step_of_decode_error hrun hfetch herr, s.takeFault_ending _⟩

end Sys2Proof.Machine
end

