-- ==== Sys2Proof/Proofs/Execute.lean ====
section
/-! PROOF. What the instructions share: the word an instruction is decoded from, the ending its arrow
asks for, and the param checks as the statements put them (spec R70, R104, R106, R114, R200). -/

namespace Sys2Proof

/-- A word decodes to the instruction whose opcode, arrow and param stand in its fields. -/
theorem decode_of_fields {w : CellWord} {i : Instr} (hopc : opcField w = i.opcode)
    (harw : Arrow.ofCode (arwField w) = i.arrow) (hprm : prmField w = i.param) :
    decode w = .ok i := by
  cases i <;> simp [decode, hopc, harw, hprm, Instr.opcode, Instr.arrow, Instr.param]

end Sys2Proof

namespace Sys2Proof.Machine

theorem State.halt_ending (s : State) : HaltEnding s s.halt := rfl

/-- Steps 3 to 5 of R101 on the outcome of an arrow are the ending the spec gives that arrow. -/
theorem State.conclude_ending (s : State) (a : Arrow) :
    ArrowEnding a s (s.conclude (dirReq a)) := by
  obtain ⟨d, rfl, h⟩ | ⟨rfl, hpol, h⟩ | ⟨rfl, hpol, h⟩ | ⟨k, rfl, h⟩ :=
    s.conclude_dirReq_cases a <;> rw [h]
  · exact s.move_ending d
  · simpa only [ArrowEnding, hpol] using s.takeFault_ending .noDirection
  · simpa only [ArrowEnding, hpol] using s.halt_ending
  · exact s.takeFault_ending .malformedProgram

section
variable {p : Byte} (s : State)

theorem withReg_faults {run : RegIdx → Host.Outcome State Fault Refusal}
    (hp : p.toNat < 0x41 ∨ 0x5A < p.toNat) :
    ∃ t, withReg p s run = .next t ∧ FaultEnding .invalidParam s t :=
  ⟨_, withReg_of_none (regIdx_eq_none_iff.mpr hp), s.takeFault_ending _⟩

theorem withDigit_faults {run : Fin 10 → Host.Outcome State Fault Refusal}
    (hp : p.toNat < 0x30 ∨ 0x39 < p.toNat) :
    ∃ t, withDigit p s run = .next t ∧ FaultEnding .invalidParam s t :=
  ⟨_, withDigit_of_none (digit_eq_none_iff.mpr hp), s.takeFault_ending _⟩

/-- A REG instruction whose execute phase leaves `effect x` and asks for the arrow's direction. -/
theorem withReg_concludes {x : RegIdx} (hp : p.toNat = 0x41 + x.val) (effect : RegIdx → State)
    (a : Arrow) :
    ∃ t, withReg p s (fun y => .next ((effect y).conclude (dirReq a))) = .next t ∧
      ArrowEnding a (effect x) t :=
  ⟨_, withReg_of_some (regIdx_eq_some_iff.mpr hp), (effect x).conclude_ending a⟩

/-- A DIGIT instruction whose execute phase leaves `effect k` and asks for the arrow's direction. -/
theorem withDigit_concludes {k : Fin 10} (hp : p.toNat = 0x30 + k.val) (effect : Fin 10 → State)
    (a : Arrow) :
    ∃ t, withDigit p s (fun n => .next ((effect n).conclude (dirReq a))) = .next t ∧
      ArrowEnding a (effect k) t :=
  ⟨_, withDigit_of_some (digit_eq_some_iff.mpr hp), (effect k).conclude_ending a⟩

end

end Sys2Proof.Machine
end

