-- ==== Sys2Proof/Proofs/Transfer.lean ====
section
/-! PROOF. LOAD, STORE and IMM (spec R120 to R122). -/

namespace Sys2Proof.Machine

theorem exec_load (a : Arrow) (p : Byte) (s : State) :
    exec (.load a p) s =
      withReg p s fun x => .next ((s.setAcc (s.reg x)).conclude (dirReq a)) := rfl

theorem exec_store (a : Arrow) (p : Byte) (s : State) :
    exec (.store a p) s =
      withReg p s fun x => .next ((s.setReg x s.acc).conclude (dirReq a)) := rfl

theorem exec_imm (a : Arrow) (p : Byte) (s : State) :
    exec (.imm a p) s =
      withDigit p s fun k => .next ((s.setAcc (BitVec.ofNat 64 k.val)).conclude (dirReq a)) := rfl

/-- A digit's value fits the word with its sign bit clear, so IMM needs no wrap (R122). -/
theorem toInt_ofNat_digit (k : Fin 10) : (BitVec.ofNat 64 k.val).toInt = k.val := by
  revert k
  decide

/-- Settles O6: the effect of LOAD is `setAcc` with the register PRM names. -/
theorem loadCopiesRegisterToAccumulator : Obligations.LoadCopiesRegisterToAccumulator := by
  refine ⟨fun w hopc => decode_of_fields hopc rfl rfl, fun s a p => ?_⟩
  rw [exec_load]
  exact ⟨fun x hp => withReg_concludes s hp (fun y => s.setAcc (s.reg y)) a, withReg_faults s⟩

/-- Settles O7: the effect of STORE is `setReg`, read back by the laws of a register after a write to
it and to another. -/
theorem storeCopiesAccumulatorToRegister : Obligations.StoreCopiesAccumulatorToRegister := by
  refine ⟨fun w hopc => decode_of_fields hopc rfl rfl, fun s a p => ?_⟩
  rw [exec_store]
  refine ⟨fun x hp => ?_, withReg_faults s⟩
  obtain ⟨t, hexec, hend⟩ := withReg_concludes s hp (fun y => s.setReg y s.acc) a
  exact ⟨t, (s.setReg x s.acc).regs, hexec, s.reg_setReg_same x s.acc,
    fun y hy => s.reg_setReg_other hy s.acc, hend⟩

/-- Settles O8: the effect of IMM is `setAcc` with the digit, whose signed reading is its value. -/
theorem immSetsAccumulatorToDigit : Obligations.ImmSetsAccumulatorToDigit := by
  refine ⟨fun w hopc => decode_of_fields hopc rfl rfl, fun s a p => ?_⟩
  rw [exec_imm]
  refine ⟨fun k hk hp => ?_, withDigit_faults s⟩
  obtain ⟨n, rfl⟩ : ∃ n : Fin 10, n.val = k := ⟨⟨k, by omega⟩, rfl⟩
  obtain ⟨t, hexec, hend⟩ :=
    withDigit_concludes s hp (fun n => s.setAcc (BitVec.ofNat 64 n.val)) a
  exact ⟨t, BitVec.ofNat 64 n.val, hexec, toInt_ofNat_digit n, hend⟩

end Sys2Proof.Machine
end

