-- ==== Sys2Proof/Proofs/Arith.lean ====
section
/-! PROOF. ADD, SUB and MUL: the exact integer result, wrapped into ACC (spec R12, R140 to R143). -/

namespace Sys2Proof.Machine

theorem exec_add (a : Arrow) (p : Byte) (s : State) :
    exec (.add a p) s = withReg p s fun x =>
      .next ((s.setAcc (wrap (s.acc.toInt + (s.reg x).toInt))).conclude (dirReq a)) := rfl

theorem exec_sub (a : Arrow) (p : Byte) (s : State) :
    exec (.sub a p) s = withReg p s fun x =>
      .next ((s.setAcc (wrap (s.acc.toInt - (s.reg x).toInt))).conclude (dirReq a)) := rfl

theorem exec_mul (a : Arrow) (p : Byte) (s : State) :
    exec (.mul a p) s = withReg p s fun x =>
      .next ((s.setAcc (wrap (s.acc.toInt * (s.reg x).toInt))).conclude (dirReq a)) := rfl

/-- The wrap of R12 at `DW = 64` in the floor-mod of R13: with a positive modulus it is the machine's
`%`. -/
theorem toInt_wrap_eq_fmod (v : Int) :
    (wrap v).toInt = Int.fmod (v + 2 ^ 63) (2 ^ 64) - 2 ^ 63 := by
  rw [toInt_wrap, wrapAt, Int.fmod_eq_emod_of_nonneg _ (by decide)]

/-- A REG instruction that leaves the wrapped `result x` in ACC and asks for the arrow's direction. -/
theorem withReg_wraps {p : Byte} (s : State) {x : RegIdx} (hp : p.toNat = 0x41 + x.val)
    (result : RegIdx → Int) (a : Arrow) :
    ∃ (t : State) (v : Word),
      withReg p s (fun y => .next ((s.setAcc (wrap (result y))).conclude (dirReq a))) = .next t ∧
      v.toInt = Int.fmod (result x + 2 ^ 63) (2 ^ 64) - 2 ^ 63 ∧
      ArrowEnding a (s.setAcc v) t := by
  obtain ⟨t, hexec, hend⟩ := withReg_concludes s hp (fun y => s.setAcc (wrap (result y))) a
  exact ⟨t, wrap (result x), hexec, toInt_wrap_eq_fmod _, hend⟩

/-- Settles O11: the result ADD wraps is the exact sum. -/
theorem addWrapsExactSum : Obligations.AddWrapsExactSum := by
  refine ⟨fun w hopc => decode_of_fields hopc rfl rfl, fun s a p => ?_⟩
  rw [exec_add]
  exact ⟨fun x hp => withReg_wraps s hp (fun y => s.acc.toInt + (s.reg y).toInt) a,
    withReg_faults s⟩

/-- Settles O12: the result SUB wraps is the exact difference, ACC first. -/
theorem subWrapsExactDifference : Obligations.SubWrapsExactDifference := by
  refine ⟨fun w hopc => decode_of_fields hopc rfl rfl, fun s a p => ?_⟩
  rw [exec_sub]
  exact ⟨fun x hp => withReg_wraps s hp (fun y => s.acc.toInt - (s.reg y).toInt) a,
    withReg_faults s⟩

/-- Settles O13: the result MUL wraps is the exact product of the signed values. -/
theorem mulWrapsExactProduct : Obligations.MulWrapsExactProduct := by
  refine ⟨fun w hopc => decode_of_fields hopc rfl rfl, fun s a p => ?_⟩
  rw [exec_mul]
  exact ⟨fun x hp => withReg_wraps s hp (fun y => s.acc.toInt * (s.reg y).toInt) a,
    withReg_faults s⟩

end Sys2Proof.Machine
end

