-- ==== Sys2Proof/Proofs/Flow.lean ====
section
/-! PROOF. NOOP, CASE, STOP, REVERSE and BLANK (spec R110, R111, R113, R150 to R154). -/

namespace Sys2Proof.Machine

theorem exec_caseSign (a : Arrow) (p : Byte) (s : State) :
    exec (.caseSign a p) s = .next (s.move (caseDirection (signOf s.acc))) := rfl

theorem exec_stop (a : Arrow) (p : Byte) (s : State) :
    exec (.stop a p) s = .next s.halt := rfl

theorem exec_reverse (a : Arrow) (p : Byte) (s : State) :
    exec (.reverse a p) s = .next (s.toggleRev.conclude (dirReq a)) := rfl

theorem exec_blank (a : Arrow) (p : Byte) (s : State) :
    exec (.blank a p) s = .next (s.move s.lastDir) := rfl

/-! ### STOP, and what else could halt -/

theorem dirReq_ne_halt (a : Arrow) : dirReq a ≠ .halt := by
  cases a <;> exact nofun

/-- Of the thirteen execute phases only that of STOP returns `Halt` (R105). -/
theorem eq_stop_of_outcomeOf_eq_halt {i : Instr} {s : State} (h : outcomeOf i s = .halt) :
    ∃ a p, i = .stop a p := by
  cases i with
  | stop a p => exact ⟨a, p, rfl⟩
  | blank | caseSign => cases h
  | load | store | input | output | add | sub | mul | noop | imm | reverse =>
    exact absurd h (dirReq_ne_halt _)

/-- With NO_ARROW_POLICY = FAULT no outcome but `Halt` ends in HALTED: a missing arrow faults (R114). -/
theorem State.eq_halt_of_conclude_halted {s : State} {o : ExecOutcome}
    (hrun : s.runState = .running) (hpol : s.policy = .fault)
    (h : (s.conclude o).runState = .halted) : o = .halt := by
  cases o with
  | halt => rfl
  | move d => simp [State.conclude, hrun] at h
  | noArrow => simp [State.conclude, State.noArrow, hpol] at h
  | malformed => simp [State.conclude] at h

/-- With NO_ARROW_POLICY = FAULT an instruction that ends in HALTED is a STOP. -/
theorem eq_stop_of_exec_halts {i : Instr} {s t : State} (hrun : s.runState = .running)
    (hpol : s.policy = .fault) (hexec : exec i s = .next t) (hhalt : t.runState = .halted) :
    ∃ a p, i = .stop a p := by
  obtain ⟨-, rfl⟩ | ⟨-, -, rfl⟩ | ⟨-, e, heff, rfl⟩ := exec_cases hexec
  · cases hhalt
  · rw [hrun] at hhalt
    cases hhalt
  · obtain ⟨-, -, hrun', -, -, -, hpol'⟩ := heff.keeps
    exact eq_stop_of_outcomeOf_eq_halt
      (State.eq_halt_of_conclude_halted (hrun'.trans hrun) (hpol'.trans hpol) hhalt)

/-- Settles O16: a step ends in HALTED only through an instruction, and that instruction only through
the outcome `Halt`, which is STOP's alone. -/
theorem stopAloneHaltsAndStaysInPlace : Obligations.StopAloneHaltsAndStaysInPlace := by
  refine ⟨fun w hopc => decode_of_fields hopc rfl rfl,
    fun s a p => ⟨_, exec_stop a p s, s.halt_ending⟩, fun s t hrun hpol hstep hhalt => ?_⟩
  obtain ⟨hstopped, -⟩ | ⟨-, w, e, -, -, rfl⟩ | ⟨-, w, i, hfetch, hdecode, hexec⟩ :=
    step_cases hstep
  · exact absurd hrun hstopped
  · cases hhalt
  · obtain ⟨a, p, rfl⟩ := eq_stop_of_exec_halts hrun hpol hexec hhalt
    cases hexec
    exact ⟨⟨a, p, current_of_decode hfetch hdecode⟩, s.halt_ending⟩

/-! ### BLANK and the way back -/

/-- A coordinate in range that is displaced there and back is itself again. -/
theorem wrapCoord_wrapCoord_neg {x n : Nat} (h : x < n) (d : Int) :
    wrapCoord (wrapCoord x d n) (-d) n = x := by
  have hback : ((x + d) % n + -d) % (n : Int) = x := by
    rw [Int.emod_add_emod, Int.add_neg_cancel_right]
    exact Int.emod_eq_of_lt (by omega) (by omega)
  rw [wrapCoord, cast_wrapCoord (Nat.zero_lt_of_lt h), hback, Int.toNat_natCast]

/-- A move against the last one leads back to the cell it came from (R108, R112). -/
theorem Grid.advance_advance_opp {g : Grid} {p : Pos} (hrow : p.row < g.height)
    (hcol : p.col < g.width) (d : Direction) : g.advance (g.advance p d) (opp d) = p := by
  simp only [Grid.advance, rowDelta_opp, colDelta_opp, wrapCoord_wrapCoord_neg hrow,
    wrapCoord_wrapCoord_neg hcol]

@[simp] theorem resolve_false (d : Direction) : resolve false d = d := rfl
@[simp] theorem resolve_true (d : Direction) : resolve true d = opp d := rfl

/-- Settles O24: each BLANK is `move lastDir`, so with REV set the second moves opposite to the first
and `Grid.advance_advance_opp` closes the round trip. -/
theorem blankGoesStraightOrBouncesBack : Obligations.BlankGoesStraightOrBouncesBack := by
  intro s t u a b p q hin ht hu
  obtain ⟨hrow, hcol⟩ := hin
  obtain rfl := Host.Outcome.next.inj ((exec_blank a p s).symm.trans ht)
  obtain rfl := Host.Outcome.next.inj ((exec_blank b q _).symm.trans hu)
  refine ⟨fun hrev => by simp [hrev], fun hrev => ?_⟩
  have hback := Grid.advance_advance_opp hrow hcol (opp s.lastDir)
  exact ⟨by simp [hrev], by simp [hrev], by simpa [hrev] using hback, by simp [hrev]⟩

/-- Settles O18: a BLANK is a move in the LASTDIR it finds. -/
theorem blankMovesInLastDirection : Obligations.BlankMovesInLastDirection :=
  ⟨fun _ hopc => decode_of_fields hopc rfl rfl,
    fun s a p => ⟨_, exec_blank a p s, s.move_ending s.lastDir⟩⟩

/-! ### NOOP and REVERSE: the arrow decides -/

/-- Settles O14: the arrow ends the step on the state NOOP finds. -/
theorem noopOnlyFollowsItsArrow : Obligations.NoopOnlyFollowsItsArrow :=
  ⟨fun _ hopc => decode_of_fields hopc rfl rfl,
    fun s a p => ⟨_, exec_noop a p s, s.conclude_ending a⟩⟩

/-- Settles O17: the arrow ends the step on the state with REV inverted. -/
theorem reverseInvertsFlagThenFollowsArrow : Obligations.ReverseInvertsFlagThenFollowsArrow :=
  ⟨fun _ hopc => decode_of_fields hopc rfl rfl,
    fun s a p => ⟨_, exec_reverse a p s, s.toggleRev.conclude_ending a⟩⟩

/-! ### CASE: the sign decides -/

theorem signOf_of_neg {v : Word} (h : v.toInt < 0) : signOf v = .negative := if_pos h

theorem signOf_of_zero {v : Word} (h : v.toInt = 0) : signOf v = .zero := by
  rw [signOf, if_neg (by omega), if_pos h]

theorem signOf_of_pos {v : Word} (h : 0 < v.toInt) : signOf v = .positive := by
  rw [signOf, if_neg (by omega), if_neg (by omega)]

/-- Settles O15: one clause for each sign of ACC. -/
theorem caseMovesBySignOfAccumulator : Obligations.CaseMovesBySignOfAccumulator := by
  refine ⟨fun w hopc => decode_of_fields hopc rfl rfl, fun s a p => ⟨_, exec_caseSign a p s, ?_⟩⟩
  refine ⟨fun hneg => ?_, fun hzero => ?_, fun hpos => ?_⟩
  · rw [signOf_of_neg hneg]
    exact s.move_ending .up
  · rw [signOf_of_zero hzero]
    exact s.move_ending .right
  · rw [signOf_of_pos hpos]
    exact s.move_ending .down

end Sys2Proof.Machine
end

