-- ==== Sys2Proof/Proofs/Faults.lean ====
section
/-! PROOF. The faults a step raises: the check that raises each, and what each keeps (spec R203 to
R207). -/

namespace Sys2Proof.Machine

/-! ### The param check comes before everything else -/

theorem paramForm_eq_reg_of_opcode {i : Instr}
    (h : i.opcode ∈ ([0x1, 0x2, 0x5, 0x6, 0x7] : List (BitVec 4))) : paramForm i = .reg := by
  cases i with
  | load | store | add | sub | mul => rfl
  | blank | input | output | noop | caseSign | stop | imm | reverse => simp [Instr.opcode] at h

theorem paramForm_eq_digit_of_opcode {i : Instr}
    (h : i.opcode ∈ ([0x3, 0x4, 0xB] : List (BitVec 4))) : paramForm i = .digit := by
  cases i with
  | input | output | imm => rfl
  | blank | load | store | add | sub | mul | noop | caseSign | stop | reverse =>
    simp [Instr.opcode] at h

theorem exec_of_regIdx_eq_none {i : Instr} (s : State) (hform : paramForm i = .reg)
    (hparam : regIdx i.param = none) : exec i s = .next (s.takeFault .invalidParam) := by
  cases i with
  | load | store | add | sub | mul => exact withReg_of_none hparam
  | blank | input | output | noop | caseSign | stop | imm | reverse => cases hform

theorem exec_of_digit_eq_none {i : Instr} (s : State) (hform : paramForm i = .digit)
    (hparam : digit i.param = none) : exec i s = .next (s.takeFault .invalidParam) := by
  cases i with
  | input | output | imm => exact withDigit_of_none hparam
  | blank | load | store | add | sub | mul | noop | caseSign | stop | reverse => cases hform

/-- Settles O27: the opcode fixes the form of PRM, and a PRM outside that form's range ends `exec` in
the fault on the state it began with. -/
theorem invalidParamFaultsBeforeAnyEffect : Obligations.InvalidParamFaultsBeforeAnyEffect := by
  rintro s i (⟨hopc, hrange⟩ | ⟨hopc, hrange⟩)
  · exact ⟨_, exec_of_regIdx_eq_none s (paramForm_eq_reg_of_opcode hopc)
      (regIdx_eq_none_iff.mpr hrange), s.takeFault_ending _⟩
  · exact ⟨_, exec_of_digit_eq_none s (paramForm_eq_digit_of_opcode hopc)
      (digit_eq_none_iff.mpr hrange), s.takeFault_ending _⟩

/-! ### What an instruction that faults, and a running block's step, can have done -/

/-- An execute phase returns what its arrow asks for, or a move or a halt whatever the arrow (R105,
R106). -/
theorem outcomeOf_cases (i : Instr) (s : State) :
    (usesArrow i = true ∧ outcomeOf i s = dirReq i.arrow) ∨
    (∃ d, outcomeOf i s = .move d) ∨ outcomeOf i s = .halt := by
  cases i with
  | load | store | input | output | add | sub | mul | noop | imm | reverse => exact .inl ⟨rfl, rfl⟩
  | blank | caseSign => exact .inr (.inl ⟨_, rfl⟩)
  | stop => exact .inr (.inr rfl)

theorem arrow_absent_of_outcomeOf_eq_noArrow {i : Instr} {s : State}
    (h : outcomeOf i s = .noArrow) : usesArrow i = true ∧ i.arrow = .absent := by
  obtain ⟨huses, hdir⟩ | ⟨d, hmove⟩ | hhalt := outcomeOf_cases i s
  · rw [hdir] at h
    cases harrow : i.arrow with
    | absent => exact ⟨huses, rfl⟩
    | toward | malformed => simp [harrow, dirReq] at h
  · simp [hmove] at h
  · simp [hhalt] at h

theorem arrow_not_wf_of_outcomeOf_eq_malformed {i : Instr} {s : State}
    (h : outcomeOf i s = .malformed) : i.arrow.wf = false := by
  obtain ⟨-, hdir⟩ | ⟨d, hmove⟩ | hhalt := outcomeOf_cases i s
  · rw [hdir] at h
    cases harrow : i.arrow with
    | malformed => rfl
    | toward | absent => simp [harrow, dirReq] at h
  · simp [hmove] at h
  · simp [hhalt] at h

/-- The two outcomes of an execute phase that end a running block's step in a fault. -/
theorem State.conclude_faulted_cases {s : State} {o : ExecOutcome} (hrun : s.runState = .running)
    (h : (s.conclude o).runState = .faulted) :
    (o = .noArrow ∧ s.conclude o = s.takeFault .noDirection) ∨
    (o = .malformed ∧ s.conclude o = s.takeFault .malformedProgram) := by
  cases o with
  | move d => simp [State.conclude, hrun] at h
  | halt => simp [State.conclude] at h
  | malformed => exact .inr ⟨rfl, rfl⟩
  | noArrow =>
    obtain ⟨-, hfault⟩ | ⟨-, hhalt⟩ := s.noArrow_cases
    · exact .inl ⟨rfl, hfault⟩
    · simp [State.conclude, hhalt] at h

/-- The checks of R207 from the param check on, each with the state its fault is taken on; the last
case is the third branch of R106. -/
theorem exec_faulted_cases {i : Instr} {s t : State} (hrun : s.runState = .running)
    (hexec : exec i s = .next t) (hfault : t.runState = .faulted) :
    (paramOk i = false ∧ t = s.takeFault .invalidParam) ∨
    (paramOk i = true ∧ usesArrow i = true ∧ i.arrow = .absent ∧
      ∃ e, Effect i s e ∧ t = e.takeFault .noDirection) ∨
    (i.arrow.wf = false ∧ ∃ e, Effect i s e ∧ t = e.takeFault .malformedProgram) := by
  obtain hparam | ⟨-, -, rfl⟩ | ⟨hparam, e, heff, rfl⟩ := exec_cases hexec
  · exact .inl hparam
  · rw [hrun] at hfault
    cases hfault
  · obtain ⟨-, -, hrun', -⟩ := heff.keeps
    obtain ⟨ho, ht⟩ | ⟨ho, ht⟩ := State.conclude_faulted_cases (hrun'.trans hrun) hfault
    · obtain ⟨huses, harrow⟩ := arrow_absent_of_outcomeOf_eq_noArrow ho
      exact .inr (.inl ⟨hparam, huses, harrow, e, heff, ht⟩)
    · exact .inr (.inr ⟨arrow_not_wf_of_outcomeOf_eq_malformed ho, e, heff, ht⟩)

/-- The opcode check comes first: a step of a running block faults there, or in the instruction the
fetched word decodes to. -/
theorem step_running_cases {s t : State} (hrun : s.runState = .running) (hstep : step s = .next t) :
    ∃ w, s.fetch = some w ∧
      ((∃ err, decode w = .error err ∧ t = s.takeFault .invalidOpcode) ∨
        ∃ i, decode w = .ok i ∧ exec i s = .next t) := by
  obtain ⟨hstopped, -⟩ | ⟨-, w, err, hfetch, hdecode, ht⟩ | ⟨-, w, i, hfetch, hdecode, hexec⟩ :=
    step_cases hstep
  · exact absurd hrun hstopped
  · exact ⟨w, hfetch, .inl ⟨err, hdecode, ht⟩⟩
  · exact ⟨w, hfetch, .inr ⟨i, hdecode, hexec⟩⟩

/-! ### The writes a missing direction keeps -/

/-- An execute phase that has an effect ends in the ending it asks for: the converse of the last case
of `exec_cases`. -/
theorem exec_of_effect {i : Instr} {s e : State} (h : Effect i s e) :
    exec i s = .next (e.conclude (outcomeOf i s)) := by
  cases i with
  | blank | noop | caseSign | stop | reverse => cases h; rfl
  | load | store | add | sub | mul =>
    obtain ⟨x, hx, rfl⟩ := h
    exact withReg_of_some hx
  | imm =>
    obtain ⟨k, hk, rfl⟩ := h
    exact withDigit_of_some hk
  | input =>
    obtain ⟨n, v, hn, hreply, rfl⟩ := h
    exact (withDigit_of_some hn).trans (by simp [hreply, outcomeOf])
  | output =>
    obtain ⟨n, hn, hreply, rfl⟩ := h
    exact (withDigit_of_some hn).trans (by simp [hreply, outcomeOf])

/-- No execute phase reads the arrow. -/
theorem effect_withArrow {i : Instr} {s e : State} (h : Effect i s e) (a : Arrow) :
    Effect (withArrow a i) s e := by
  cases i <;> exact h

/-- Settles O40: INVALID_OPCODE and INVALID_PARAM are taken on the state before the step, NO_DIRECTION
on the state the execute phase left, which another arrow would have left too. -/
theorem faultKeepsStateAtFaultingCell : Obligations.FaultKeepsStateAtFaultingCell := by
  intro s t hrun hstep hfault
  obtain ⟨w, hfetch, ⟨err, -, rfl⟩ | ⟨i, hdecode, hexec⟩⟩ := step_running_cases hrun hstep
  · exact ⟨rfl, rfl, nofun, rfl, fun _ => s.takeFault_ending _, nofun⟩
  obtain ⟨-, rfl⟩ | ⟨-, -, harrow, e, heff, rfl⟩ | ⟨-, e, heff, rfl⟩ :=
    exec_faulted_cases hrun hexec hfault
  · exact ⟨rfl, rfl, nofun, rfl, fun _ => s.takeFault_ending _, nofun⟩
  · obtain ⟨hip, hlast, -, -, -, hgrid, -⟩ := heff.keeps
    refine ⟨hip, hlast, nofun, hgrid, nofun, fun _ =>
      ⟨i, current_of_decode hfetch hdecode, harrow, fun d =>
        ⟨_, exec_of_effect (effect_withArrow heff (.toward d)), ?_⟩⟩⟩
    obtain ⟨hacc, hregs, hrev, htrace, -⟩ :=
      e.conclude_data (outcomeOf (withArrow (.toward d) i) s)
    exact ⟨hacc.symm, hregs.symm, hrev.symm, htrace.symm⟩
  · obtain ⟨hip, hlast, -, -, -, hgrid, -⟩ := heff.keeps
    exact ⟨hip, hlast, nofun, hgrid, nofun, nofun⟩

/-! ### The first failing check -/

/-- A cell's word stands in one of the grid's rows. -/
theorem Grid.mem_of_cell_eq_some {g : Grid} {p : Pos} {w : CellWord} (h : g.cell p = some w) :
    ∃ r ∈ g.rows, w ∈ r := by
  unfold Grid.cell at h
  split at h
  · split at h
    · next r hr => exact ⟨r, List.mem_of_getElem? hr, List.mem_of_getElem? h⟩
    · cases h
  · cases h

/-- A program that passed the load checks gives every instruction it holds a legal arrow (R252 (c)). -/
theorem State.arrow_wf_of_loadOk {s : State} {w : CellWord} {i : Instr}
    (hload : s.grid.loadOk = true) (hfetch : s.fetch = some w) (hdecode : decode w = .ok i) :
    i.arrow.wf = true := by
  obtain ⟨r, hr, hw⟩ := Grid.mem_of_cell_eq_some hfetch
  have hcode := Arrow.wf_ofCode_iff.mpr (Grid.arrowsOk_iff.mp (Grid.loadOk_arrowsOk hload) r hr w hw)
  obtain ⟨-, j, hj, -, harrow, -⟩ | ⟨-, herr⟩ := decode_cases w
  · cases hdecode.symm.trans hj
    rwa [harrow]
  · cases hdecode.symm.trans herr

/-- Settles O41: the check that failed and the ones before it decide all four clauses, and the load
checks exclude the malformed arrow. -/
theorem firstFailingCheckNamesTheCause : Obligations.FirstFailingCheckNamesTheCause := by
  rintro s t w ⟨hload, -⟩ hrun hfetch hstep hfault
  obtain ⟨w', hfetch', hcases⟩ := step_running_cases hrun hstep
  cases hfetch.symm.trans hfetch'
  obtain ⟨err, hdecode, rfl⟩ | ⟨i, hdecode, hexec⟩ := hcases
  · simp [hdecode]
  obtain ⟨hparam, rfl⟩ | ⟨hparam, huses, harrow, e, -, rfl⟩ | ⟨hwf, -⟩ :=
    exec_faulted_cases hrun hexec hfault
  · simp [hdecode, hparam]
  · simp [hdecode, hparam, huses, harrow]
  · simp [State.arrow_wf_of_loadOk hload hfetch hdecode] at hwf

end Sys2Proof.Machine
end

