-- ==== Sys2Proof/Proofs/ResetState.lean ====
section
/-! PROOF. The state the reset command leaves, and the first instruction a run executes (spec R250 to
R253). -/

namespace Sys2Proof.Machine

theorem State.resetWith_of_loadOk {g : Grid} (h : g.loadOk = true) (s : State)
    (inputs : List InputReply) (outputs : List OutputReply) :
    s.resetWith g inputs outputs = s.bound g inputs outputs :=
  if_pos h

theorem State.bound_reg_toInt (s : State) (g : Grid) (inputs : List InputReply)
    (outputs : List OutputReply) (x : RegIdx) :
    ((s.bound g inputs outputs).regs[x]).toInt = 0 := by
  simp [State.bound, State.reset]

/-- Settles O49: the values are those of `State.bound`, and the fault of a failed load check writes
RUNSTATE and CAUSE alone. -/
theorem resetSetsEveryResetValue : Obligations.ResetSetsEveryResetValue := by
  intro s g inputs outputs
  have hregs := s.bound_reg_toInt g inputs outputs
  by_cases hload : g.loadOk = true
  · rw [State.resetWith_of_loadOk hload]
    exact ⟨rfl, hregs, rfl, rfl, rfl, rfl, rfl, rfl, rfl, rfl, fun _ => ⟨rfl, rfl⟩,
      fun hfail => by simp [hload] at hfail⟩
  · rw [State.resetWith_of_not_loadOk hload]
    exact ⟨rfl, hregs, rfl, rfl, rfl, rfl, rfl, rfl, rfl, rfl, fun hok => absurd hok hload,
      fun _ => ⟨rfl, rfl⟩⟩

/-- The first word of the first row is the cell at (0, 0) (R51). -/
theorem Grid.cell_zero_of_rows {g : Grid} {w : CellWord} {row : List CellWord}
    {rows : List (List CellWord)} (hrows : g.rows = (w :: row) :: rows)
    (hheight : 0 < g.height) (hwidth : 0 < g.width) : g.cell ⟨0, 0⟩ = some w := by
  simp [Grid.cell, hrows, hheight, hwidth]

/-- A program that passed the load checks has a first row and a first word in it (R252 (a), (b)). -/
theorem Grid.rows_eq_cons_of_loadOk {g : Grid} (h : g.loadOk = true) :
    ∃ w row rows, g.rows = (w :: row) :: rows := by
  obtain ⟨hheight, hwidth⟩ := Grid.loadOk_pos h
  obtain ⟨hlen, hrect⟩ := Grid.rectangular_iff.mp (Grid.loadOk_rectangular h)
  obtain ⟨r, rows, hrows⟩ := List.exists_cons_of_length_pos (hlen ▸ hheight)
  have hr : r.length = g.width := hrect r (by simp [hrows])
  obtain ⟨w, row, rfl⟩ := List.exists_cons_of_length_pos (hr ▸ hwidth)
  exact ⟨w, row, rows, hrows⟩

theorem step_of_decode_ok {s : State} {w : CellWord} {i : Instr}
    (hrun : s.runState = .running) (hfetch : s.fetch = some w) (hdecode : decode w = .ok i) :
    step s = exec i s := by
  simp [step, hrun, hfetch, hdecode]

/-- Settles O52: the load checks leave a word at (0, 0), where reset puts the IP of a running
block. -/
theorem firstInstructionIsCellZero : Obligations.FirstInstructionIsCellZero := by
  intro s g inputs outputs hload
  obtain ⟨hheight, hwidth⟩ := Grid.loadOk_pos hload
  obtain ⟨w, row, rows, hrows⟩ := Grid.rows_eq_cons_of_loadOk hload
  have hfetch : (s.bound g inputs outputs).fetch = some w :=
    Grid.cell_zero_of_rows hrows hheight hwidth
  rw [State.resetWith_of_loadOk hload]
  exact ⟨rfl, rfl, rfl, w, row, rows, hrows, hfetch, fun _ => step_of_decode_ok rfl hfetch⟩

end Sys2Proof.Machine
end

