-- ==== Sys2Proof/Proofs/Encode.lean ====
section
/-! PROOF. The encoder and the decoder are inverse to each other (spec R70 to R75, R77). -/

namespace Sys2Proof

/-- Every arrow, a malformed one too, is read back from its code (R72, R77). -/
theorem Arrow.ofCode_code (a : Arrow) : Arrow.ofCode a.code = a := by
  cases a with
  | toward d => cases d <;> rfl
  | absent => rfl
  | malformed k => revert k; decide

/-- Every code of ARW is the code of the arrow it is read as (R72, R77). -/
theorem Arrow.code_ofCode : ∀ a : BitVec 4, (Arrow.ofCode a).code = a := by
  decide

/-- A word is its three fields, from the high end down (R70). -/
theorem append_fields (w : CellWord) : opcField w ++ arwField w ++ prmField w = w := by
  apply BitVec.eq_of_getLsbD_eq
  intro k hk
  rw [Laws.EncodeFields.bit_of_append, opcField, arwField, prmField]
  split_ifs with hprm harw
  · simp [hprm]
  · simp [harw, show 8 + (k - 8) = k by omega]
  · simp [show k - 8 - 4 < 4 by omega, show 12 + (k - 8 - 4) = k by omega]

/-- Settles O1: the three fields of the encoding are those of the instruction, and they decode to
it. -/
theorem decodeAfterEncodeGivesInstruction : Obligations.DecodeAfterEncodeGivesInstruction := by
  intro i
  obtain ⟨hopc, harw, hprm⟩ := Laws.EncodeFields.fields_of_append i.opcode i.arrow.code i.param
  exact decode_of_fields hopc ((congrArg Arrow.ofCode harw).trans i.arrow.ofCode_code) hprm

/-- Settles O2: what a word decodes to has the word's own fields, which are the whole word. -/
theorem encodeAfterDecodeGivesWord : Obligations.EncodeAfterDecodeGivesWord := by
  intro w i hdecode
  obtain ⟨-, j, hj, hopc, harw, hprm⟩ | ⟨-, herr⟩ := decode_cases w
  · cases hdecode.symm.trans hj
    rw [encode, hopc, harw, hprm, Arrow.code_ofCode, append_fields]
  · cases hdecode.symm.trans herr

/-- Settles O4: each listed word has the fields of the listed instruction. -/
theorem listedWordsDecodeAsListed : Obligations.ListedWordsDecodeAsListed := by
  refine ⟨?_, ?_, ?_, ?_, ?_, ?_, ?_, ?_, ?_, ?_, ?_, ?_, ?_⟩ <;>
    exact decode_of_fields (by decide) (by decide) (by decide)

end Sys2Proof
end

