-- ==== Sys2Proof/Proofs/Inversion.lean ====
section
/-! PROOF. What a step can write, said once: the control state and the data of the state it ends in
(spec R101, R116, R117, R200). -/

namespace Sys2Proof.Machine

/-- `e` differs from `s` at most in what an execute phase writes. -/
structure SameControl (s e : State) : Prop where
  ip : e.ip = s.ip
  lastDir : e.lastDir = s.lastDir
  runState : e.runState = s.runState
  cause : e.cause = s.cause
  steps : e.steps = s.steps
  grid : e.grid = s.grid
  policy : e.policy = s.policy

theorem SameControl.refl (s : State) : SameControl s s := ⟨rfl, rfl, rfl, rfl, rfl, rfl, rfl⟩

theorem Effect.sameControl {i : Instr} {s e : State} (h : Effect i s e) : SameControl s e := by
  obtain ⟨hip, hlast, hrun, hcause, hsteps, hgrid, hpol⟩ := h.keeps
  exact ⟨hip, hlast, hrun, hcause, hsteps, hgrid, hpol⟩

/-- `t` differs from `e` at most in what the ending of a step writes. -/
structure SameData (e t : State) : Prop where
  acc : t.acc = e.acc
  regs : t.regs = e.regs
  rev : t.rev = e.rev
  trace : t.trace = e.trace
  grid : t.grid = e.grid
  policy : t.policy = e.policy
  env : t.env = e.env

theorem SameData.refl (s : State) : SameData s s := ⟨rfl, rfl, rfl, rfl, rfl, rfl, rfl⟩

theorem State.takeFault_sameData (s : State) (c : Cause) : SameData s (s.takeFault c) :=
  ⟨rfl, rfl, rfl, rfl, rfl, rfl, rfl⟩

theorem State.conclude_sameData (s : State) (o : ExecOutcome) : SameData s (s.conclude o) := by
  obtain ⟨hacc, hregs, hrev, htrace, hgrid, hpol, henv⟩ := s.conclude_data o
  exact ⟨hacc, hregs, hrev, htrace, hgrid, hpol, henv⟩

/-- `t` is `e` after a move, a halt or a fault (steps 3 to 5 of R101). -/
def Ends (e t : State) : Prop :=
  (∃ d, t = e.move d) ∨ t = e.halt ∨ ∃ c, c ≠ .none ∧ t = e.takeFault c

theorem State.takeFault_ends (s : State) {c : Cause} (h : c ≠ .none) : Ends s (s.takeFault c) :=
  .inr (.inr ⟨c, h, rfl⟩)

theorem State.conclude_ends (s : State) (o : ExecOutcome) : Ends s (s.conclude o) := by
  cases o with
  | move d => exact .inl ⟨d, rfl⟩
  | halt => exact .inr (.inl rfl)
  | malformed => exact s.takeFault_ends nofun
  | noArrow =>
    obtain ⟨-, h⟩ | ⟨-, h⟩ := s.noArrow_cases
    · rw [State.conclude, h]
      exact s.takeFault_ends nofun
    · exact .inr (.inl h)

/-- The control part of everything a step can do: nothing, in a stopped or waiting block, or an
ending of the state the execute phase left. -/
theorem step_ending_cases {s t : State} (h : step s = .next t) :
    (t = s ∧ (s.runState ≠ .running ∨ s.Waiting)) ∨
    (s.runState = .running ∧ ∃ e, SameControl s e ∧ Ends e t) := by
  obtain ⟨hstopped, rfl⟩ | ⟨hrun, w, err, -, -, rfl⟩ | ⟨hrun, w, i, hfetch, hdecode, hexec⟩ :=
    step_cases h
  · exact .inl ⟨rfl, .inl hstopped⟩
  · exact .inr ⟨hrun, s, .refl s, s.takeFault_ends nofun⟩
  obtain ⟨-, rfl⟩ | ⟨hparam, hwaits, rfl⟩ | ⟨-, e, heff, rfl⟩ := exec_cases hexec
  · exact .inr ⟨hrun, s, .refl s, s.takeFault_ends nofun⟩
  · exact .inl ⟨rfl, .inr (waiting_of_waits (current_of_decode hfetch hdecode) hparam hwaits)⟩
  · exact .inr ⟨hrun, e, heff.sameControl, e.conclude_ends _⟩

/-- The data part of everything an instruction can do: its execute phase has its effect or is not
reached. -/
theorem exec_data_cases {i : Instr} {s t : State} (h : exec i s = .next t) :
    ∃ e, SameData e t ∧ (e = s ∨ Effect i s e) := by
  obtain ⟨-, rfl⟩ | ⟨-, -, rfl⟩ | ⟨-, e, heff, rfl⟩ := exec_cases h
  · exact ⟨s, s.takeFault_sameData _, .inl rfl⟩
  · exact ⟨_, .refl _, .inl rfl⟩
  · exact ⟨e, e.conclude_sameData _, .inr heff⟩

/-- The data part of everything a step can do. -/
theorem step_data_cases {s t : State} (h : step s = .next t) :
    ∃ e, SameData e t ∧ (e = s ∨ ∃ i, s.current = some i ∧ Effect i s e) := by
  obtain ⟨-, rfl⟩ | ⟨-, w, err, -, -, rfl⟩ | ⟨-, w, i, hfetch, hdecode, hexec⟩ := step_cases h
  · exact ⟨_, .refl _, .inl rfl⟩
  · exact ⟨s, s.takeFault_sameData _, .inl rfl⟩
  · obtain ⟨e, hdata, he⟩ := exec_data_cases hexec
    exact ⟨e, hdata, he.imp_right fun heff => ⟨i, current_of_decode hfetch hdecode, heff⟩⟩

end Sys2Proof.Machine
end

