-- ==== Sys2Proof/Proofs/Invariants.lean ====
section
/-! PROOF. The load checks written out, and the invariants: at reset, kept by every step, and so in
every reachable state (spec R7, R24, R30, R32, R35, R62, R252). -/

namespace Sys2Proof.Machine

/-! ### The load checks -/

/-- Settles O51: the checks of the model one by one, the shape by `Grid.rectangular_iff` and the
arrows by `Grid.arrowsOk_iff`. -/
theorem loadChecksAreSizeShapeAndArrows : Obligations.LoadChecksAreSizeShapeAndArrows := by
  intro g
  simp only [Grid.loadOk, Grid.loadOkWithin, Bool.and_eq_true, decide_eq_true_eq,
    Grid.rectangular_iff, Grid.arrowsOk_iff, forall₂_and, and_assoc]
  rfl

theorem Grid.loadOk_le_max {g : Grid} (h : g.loadOk = true) :
    g.height ≤ Config.hMax ∧ g.width ≤ Config.wMax := by
  obtain ⟨-, hheight, -, hwidth, -⟩ := (loadChecksAreSizeShapeAndArrows g).mp h
  exact ⟨hheight, hwidth⟩

/-! ### One step -/

theorem SameControl.inGrid {s e : State} (h : SameControl s e) (hin : s.InGrid) : e.InGrid := by
  rwa [State.InGrid, h.ip, h.grid]

theorem SameControl.loaded {s e : State} (h : SameControl s e) (hs : s.Loaded) : e.Loaded :=
  ⟨h.grid ▸ hs.1, h.inGrid hs.2⟩

theorem SameControl.inv {s e : State} (h : SameControl s e) (hs : s.Inv) : e.Inv := by
  obtain ⟨hgrid, hcause⟩ := hs
  refine ⟨fun hload => h.inGrid (hgrid (h.grid ▸ hload)), ?_⟩
  rwa [h.runState, h.cause]

/-- Each ending of a running block keeps the invariants: a move stays on the torus, a halt leaves
the NONE it finds, and a fault writes RUNSTATE and CAUSE together. -/
theorem Ends.inv {e t : State} (h : Ends e t) (hrun : e.runState = .running) (he : e.Inv) :
    t.Inv := by
  obtain ⟨hgrid, hcause⟩ := he
  obtain ⟨d, rfl⟩ | rfl | ⟨c, hc, rfl⟩ := h
  · exact ⟨fun hload => State.move_inGrid (hgrid hload) d, hcause⟩
  · have hnone : e.cause = .none := not_not.mp (mt hcause.mpr (by simp [hrun]))
    exact ⟨hgrid, by simp [hnone]⟩
  · exact ⟨hgrid, by simp [hc]⟩

/-- Only a move goes on running, and it stays on the torus of the same program. -/
theorem Ends.loaded {e t : State} (h : Ends e t) (he : e.Loaded) (hrun : t.runState = .running) :
    t.Loaded := by
  obtain ⟨d, rfl⟩ | rfl | ⟨c, -, rfl⟩ := h
  · exact ⟨he.1, State.move_inGrid he.2 d⟩
  · cases hrun
  · cases hrun

/-- Settles O53, from what an execute phase leaves and the three endings of a step. -/
theorem stepKeepsInvariant : Obligations.StepKeepsInvariant := by
  intro s t hstep
  obtain ⟨rfl, -⟩ | ⟨hrun, e, hsame, hends⟩ := step_ending_cases hstep
  · exact ⟨id, id⟩
  · exact ⟨fun hinv => hends.inv (hsame.runState.trans hrun) (hsame.inv hinv),
      fun hload => hends.loaded (hsame.loaded (hload hrun))⟩

/-! ### Runs -/

/-- What every step keeps holds all along a run. -/
theorem Runs.keeps {P : State → Prop} (hkeep : ∀ {s t : State}, step s = .next t → P s → P t)
    {s t : State} (h : Runs s t) (hs : P s) : P t := by
  induction h with
  | refl => exact hs
  | tail _ hstep ih => exact hkeep hstep ih

theorem step_grid_policy {s t : State} (h : step s = .next t) :
    t.grid = s.grid ∧ t.policy = s.policy := by
  obtain ⟨e, hdata, rfl | ⟨i, -, heff⟩⟩ := step_data_cases h
  · exact ⟨hdata.grid, hdata.policy⟩
  · exact ⟨hdata.grid.trans heff.sameControl.grid, hdata.policy.trans heff.sameControl.policy⟩

theorem State.resetWith_grid_policy (s : State) (g : Grid) (inputs : List InputReply)
    (outputs : List OutputReply) :
    (s.resetWith g inputs outputs).grid = g ∧
      (s.resetWith g inputs outputs).policy = s.policy := by
  by_cases hload : g.loadOk = true
  · rw [State.resetWith_of_loadOk hload]
    exact ⟨rfl, rfl⟩
  · rw [State.resetWith_of_not_loadOk hload]
    exact ⟨rfl, rfl⟩

/-- Settles O42: the reset command binds both, and no step writes either. -/
theorem gridIsAsAtReset : Obligations.GridIsAsAtReset := by
  intro s t g inputs outputs hruns
  obtain ⟨hgrid, hpol⟩ :=
    hruns.keeps (P := fun u => u.grid = g ∧ u.policy = s.policy)
      (fun hstep hu => by
        obtain ⟨hgrid', hpol'⟩ := step_grid_policy hstep
        rwa [hgrid', hpol'])
      (s.resetWith_grid_policy g inputs outputs)
  exact ⟨fun c => by rw [hgrid], hgrid, hpol⟩

/-! ### Reset, and every reachable state -/

theorem State.bound_loaded {g : Grid} (h : g.loadOk = true) (s : State)
    (inputs : List InputReply) (outputs : List OutputReply) :
    (s.bound g inputs outputs).Loaded :=
  ⟨h, Grid.loadOk_pos h⟩

/-- The reset command establishes what `stepKeepsInvariant` keeps. -/
theorem State.resetWith_inv_loaded (s : State) (g : Grid) (inputs : List InputReply)
    (outputs : List OutputReply) :
    (s.resetWith g inputs outputs).Inv ∧
      ((s.resetWith g inputs outputs).runState = .running →
        (s.resetWith g inputs outputs).Loaded) := by
  by_cases hload : g.loadOk = true
  · have hbound := s.bound_loaded hload inputs outputs
    rw [State.resetWith_of_loadOk hload]
    exact ⟨⟨fun _ => hbound.2, nofun, fun h => absurd rfl h⟩, fun _ => hbound⟩
  · rw [State.resetWith_of_not_loadOk hload]
    exact ⟨⟨fun h => absurd h hload, fun _ => nofun, fun _ => rfl⟩, nofun⟩

theorem Reachable.inv_loaded {t : State} (h : Reachable t) :
    t.Inv ∧ (t.runState = .running → t.Loaded) := by
  obtain ⟨s, g, inputs, outputs, hruns⟩ := h
  exact hruns.keeps (P := fun u => u.Inv ∧ (u.runState = .running → u.Loaded))
    (fun hstep hu => (stepKeepsInvariant _ _ hstep).imp (· hu.1) (· hu.2))
    (s.resetWith_inv_loaded g inputs outputs)

/-- Settles O55: the invariants by induction on the run, the ranges from the types. -/
theorem reachableStatesMeetInvariant : Obligations.ReachableStatesMeetInvariant := by
  intro t ht
  obtain ⟨hinv, hload⟩ := ht.inv_loaded
  exact ⟨hinv, hload, t.acc.le_toInt, t.acc.toInt_le,
    fun x => ⟨t.regs[x].le_toInt, t.regs[x].toInt_le⟩, Nat.le_of_lt_succ t.lastDir.code.isLt⟩

/-- Settles O54: no program is listed, and CAUSE is NONE in RUNNING. -/
theorem resetStateMeetsInvariant : Obligations.ResetStateMeetsInvariant := by
  refine ⟨fun hload => ?_, by decide⟩
  obtain ⟨hheight, -⟩ := Grid.loadOk_pos hload
  cases hheight

/-! ### The widths of the fields of the IP -/

/-- `max(1, ceil(log2 n))` bits hold every number below `n` (R7). -/
theorem le_two_pow_max_clog (n : Nat) : n ≤ 2 ^ max 1 (Nat.clog 2 n) :=
  (Nat.le_pow_clog Nat.one_lt_two n).trans (Nat.pow_le_pow_right Nat.two_pos (le_max_right ..))

/-- Settles O56: a coordinate is below the grid's size, that is at most the largest size, and the
field is wide enough for that. -/
theorem instructionPointerFitsItsFields : Obligations.InstructionPointerFitsItsFields := by
  rintro s ⟨hload, hrow, hcol⟩
  obtain ⟨hheight, hwidth⟩ := Grid.loadOk_le_max hload
  exact ⟨hrow.trans_le (hheight.trans (le_two_pow_max_clog _)),
    hcol.trans_le (hwidth.trans (le_two_pow_max_clog _))⟩

end Sys2Proof.Machine
end

