-- ==== Sys2Proof/Proofs/Writers.lean ====
section
/-! PROOF. Which instructions write which state (spec R20, R23, R28, R117). -/

namespace Sys2Proof.Machine

/-! ### What each execute phase writes -/

theorem Effect.regs_cases {i : Instr} {s e : State} (h : Effect i s e) :
    e.regs = s.regs ∨ ∃ a p x, i = .store a p ∧ regIdx p = some x ∧ e = s.setReg x s.acc := by
  cases i with
  | store a p =>
    obtain ⟨x, hx, rfl⟩ := h
    exact .inr ⟨a, p, x, rfl, hx, rfl⟩
  | blank | noop | caseSign | stop | reverse => cases h; exact .inl rfl
  | load | add | sub | mul | imm => obtain ⟨x, -, rfl⟩ := h; exact .inl rfl
  | input => obtain ⟨n, v, -, -, rfl⟩ := h; exact .inl rfl
  | output => obtain ⟨n, -, -, rfl⟩ := h; exact .inl rfl

theorem Effect.acc_cases {i : Instr} {s e : State} (h : Effect i s e) :
    e.acc = s.acc ∨ i.opcode ∈ ([0x1, 0x3, 0x5, 0x6, 0x7, 0xB] : List (BitVec 4)) := by
  cases i with
  | load | input | add | sub | mul | imm => right; simp [Instr.opcode]
  | blank | noop | caseSign | stop | reverse => cases h; exact .inl rfl
  | store => obtain ⟨x, -, rfl⟩ := h; exact .inl rfl
  | output => obtain ⟨n, -, -, rfl⟩ := h; exact .inl rfl

theorem Effect.rev_cases {i : Instr} {s e : State} (h : Effect i s e) :
    e.rev = s.rev ∨ ∃ a p, i = .reverse a p ∧ e.rev = !s.rev := by
  cases i with
  | reverse a p => cases h; exact .inr ⟨a, p, rfl, rfl⟩
  | blank | noop | caseSign | stop => cases h; exact .inl rfl
  | load | store | add | sub | mul | imm => obtain ⟨x, -, rfl⟩ := h; exact .inl rfl
  | input => obtain ⟨n, v, -, -, rfl⟩ := h; exact .inl rfl
  | output => obtain ⟨n, -, -, rfl⟩ := h; exact .inl rfl

/-! ### What each step writes -/

/-- Settles O34: the ending of a step writes no register, and of the execute phases only that of
STORE does, the one register PRM names. -/
theorem onlyStoreWritesRegisters : Obligations.OnlyStoreWritesRegisters := by
  intro s t x hstep hne
  obtain ⟨e, hdata, he⟩ := step_data_cases hstep
  rw [hdata.regs] at hne ⊢
  obtain rfl | ⟨i, hcur, heff⟩ := he
  · exact absurd rfl hne
  obtain hregs | ⟨a, p, y, rfl, hy, rfl⟩ := heff.regs_cases
  · exact absurd (by rw [hregs]) hne
  · obtain rfl : x = y := not_not.mp (mt (fun h => s.reg_setReg_other h s.acc) hne)
    exact ⟨a, p, hcur, regIdx_eq_some_iff.mp hy, s.reg_setReg_same x s.acc⟩

/-- Settles O35, by `Effect.acc_cases`. -/
theorem onlyListedInstructionsWriteAccumulator :
    Obligations.OnlyListedInstructionsWriteAccumulator := by
  intro s t hstep hne
  obtain ⟨e, hdata, he⟩ := step_data_cases hstep
  rw [hdata.acc] at hne
  obtain rfl | ⟨i, hcur, heff⟩ := he
  · exact absurd rfl hne
  · exact ⟨i, hcur, heff.acc_cases.resolve_left hne⟩

/-- Settles O36, by `Effect.rev_cases`. -/
theorem onlyReverseWritesReversalFlag : Obligations.OnlyReverseWritesReversalFlag := by
  intro s t hstep hne
  obtain ⟨e, hdata, he⟩ := step_data_cases hstep
  rw [hdata.rev] at hne ⊢
  obtain rfl | ⟨i, hcur, heff⟩ := he
  · exact absurd rfl hne
  · obtain ⟨a, p, rfl, hrev⟩ := heff.rev_cases.resolve_left hne
    exact ⟨⟨a, p, hcur⟩, hrev⟩

/-- Settles O38: of the endings of a step only a move writes IP or LASTDIR. -/
theorem onlyResolvedDirectionMoves : Obligations.OnlyResolvedDirectionMoves := by
  intro s t hrun hstep hmoved
  obtain ⟨rfl, -⟩ | ⟨-, e, hsame, hends⟩ := step_ending_cases hstep
  · simp at hmoved
  obtain ⟨d, rfl⟩ | rfl | ⟨c, -, rfl⟩ := hends
  · simp [hsame.grid, hsame.ip, hsame.steps, hsame.runState, hrun]
  · simp [hsame.ip, hsame.lastDir] at hmoved
  · simp [hsame.ip, hsame.lastDir] at hmoved

end Sys2Proof.Machine
end

