-- ==== Sys2Proof/Proofs/Frames.lean ====
section
/-! PROOF. What each group of instructions leaves unchanged (spec R120 to R122, R130, R131, R141 to
R143, R150 to R154). -/

namespace Sys2Proof.Machine

/-! ### RUNSTATE and CAUSE -/

/-- Where the arrow names a direction, only INVALID_PARAM and STOP keep a step from ending in a
move. -/
theorem exec_control_cases {i : Instr} {s t : State} (h : exec i s = .next t) :
    (t.runState = s.runState ∧ t.cause = s.cause) ∨ paramOk i = false ∨
      (∃ a p, i = .stop a p) ∨ ∀ d, i.arrow ≠ .toward d := by
  obtain ⟨hparam, -⟩ | ⟨-, -, rfl⟩ | ⟨-, e, heff, rfl⟩ := exec_cases h
  · exact .inr (.inl hparam)
  · exact .inl ⟨rfl, rfl⟩
  have hsame := heff.sameControl
  obtain ⟨-, hdir⟩ | ⟨d, hmove⟩ | hhalt := outcomeOf_cases i s
  · rw [hdir]
    cases harrow : i.arrow with
    | toward d => exact .inl ⟨hsame.runState, hsame.cause⟩
    | absent | malformed => exact .inr (.inr (.inr nofun))
  · rw [hmove]
    exact .inl ⟨hsame.runState, hsame.cause⟩
  · exact .inr (.inr (.inl (eq_stop_of_outcomeOf_eq_halt hhalt)))

/-- `exec_control_cases` as the frames put it, for the instructions other than STOP. -/
theorem paramOk_or_arrow_of_control_changed {i : Instr} {s t : State} (h : exec i s = .next t)
    (hstop : i.opcode ≠ 0xA) (hchanged : t.runState ≠ s.runState ∨ t.cause ≠ s.cause) :
    paramOk i = false ∨ ∀ d, i.arrow ≠ .toward d := by
  obtain ⟨hrun, hcause⟩ | hparam | ⟨a, p, rfl⟩ | harrow := exec_control_cases h
  · exact absurd hchanged (by simp [hrun, hcause])
  · exact .inl hparam
  · exact absurd rfl hstop
  · exact .inr harrow

/-! ### Data -/

/-- LOAD, IMM, ADD, SUB and MUL write ACC alone; where the param check fails, with its own value. -/
theorem exec_accumulator_data {a : Arrow} {p : Byte} {i : Instr} {s t : State}
    (hi : i = .load a p ∨ i = .imm a p ∨ i = .add a p ∨ i = .sub a p ∨ i = .mul a p)
    (h : exec i s = .next t) : ∃ v, SameData (s.setAcc v) t := by
  obtain ⟨e, hdata, rfl | heff⟩ := exec_data_cases h
  · exact ⟨e.acc, hdata⟩
  · obtain rfl | rfl | rfl | rfl | rfl := hi <;>
      · obtain ⟨x, -, rfl⟩ := heff
        exact ⟨_, hdata⟩

/-- Settles O45: the data are those of `setAcc`. -/
theorem accumulatorInstructionsFrame : Obligations.AccumulatorInstructionsFrame := by
  intro s t a p i hi hexec
  have hcontrol := paramOk_or_arrow_of_control_changed hexec
    (by obtain rfl | rfl | rfl | rfl | rfl := hi <;> simp [Instr.opcode])
  have harrow : i.arrow = a := by obtain rfl | rfl | rfl | rfl | rfl := hi <;> rfl
  rw [harrow] at hcontrol
  obtain ⟨v, hdata⟩ := exec_accumulator_data hi hexec
  exact ⟨fun x => by rw [hdata.regs]; rfl, hdata.rev, hdata.trace, fun c => by rw [hdata.grid]; rfl,
    hdata.grid, hdata.policy, hdata.env, hcontrol⟩

/-- Settles O46: the data are those of `setReg` on the register PRM names, or untouched. -/
theorem storeFrame : Obligations.StoreFrame := by
  intro s t a p hexec
  have hcontrol := paramOk_or_arrow_of_control_changed hexec (by simp [Instr.opcode])
  obtain ⟨e, hdata, rfl | ⟨x, hx, rfl⟩⟩ := exec_data_cases hexec
  · exact ⟨fun y _ => by rw [hdata.regs], hdata.acc, hdata.rev, hdata.trace,
      fun c => by rw [hdata.grid], hdata.grid, hdata.policy, hdata.env, hcontrol⟩
  · have hother : ∀ y : RegIdx, p.toNat ≠ 0x41 + y.val → t.regs[y] = s.regs[y] := by
      intro y hy
      rw [hdata.regs]
      exact s.reg_setReg_other (fun hyx => hy (by rw [hyx, regIdx_eq_some_iff.mp hx])) s.acc
    exact ⟨hother, hdata.acc, hdata.rev, hdata.trace, fun c => by rw [hdata.grid]; rfl,
      hdata.grid, hdata.policy, hdata.env, hcontrol⟩

/-- Settles O47: the data are those of a recorded request, or untouched. -/
theorem portInstructionsFrame : Obligations.PortInstructionsFrame := by
  intro s t a p i hi hexec
  have hcontrol := paramOk_or_arrow_of_control_changed hexec
    (by obtain rfl | rfl := hi <;> simp [Instr.opcode])
  have harrow : i.arrow = a := by obtain rfl | rfl := hi <;> rfl
  rw [harrow] at hcontrol
  obtain ⟨e, hdata, rfl | heff⟩ := exec_data_cases hexec
  · exact ⟨fun x => by rw [hdata.regs], hdata.rev, fun c => by rw [hdata.grid], hdata.grid,
      hdata.policy, fun _ => ⟨hdata.acc, by rw [hdata.env], by rw [hdata.env]⟩,
      fun _ => by rw [hdata.env], hcontrol⟩
  obtain rfl | rfl := hi
  · obtain ⟨n, v, -, -, rfl⟩ := heff
    exact ⟨fun x => by rw [hdata.regs]; rfl, hdata.rev, fun c => by rw [hdata.grid]; rfl,
      hdata.grid, hdata.policy, nofun, fun _ => by rw [hdata.env]; rfl, hcontrol⟩
  · obtain ⟨n, -, -, rfl⟩ := heff
    exact ⟨fun x => by rw [hdata.regs]; rfl, hdata.rev, fun c => by rw [hdata.grid]; rfl,
      hdata.grid, hdata.policy,
      fun _ => ⟨hdata.acc, by rw [hdata.env]; rfl, by rw [hdata.env]; rfl⟩, nofun, hcontrol⟩

/-! ### The flow instructions -/

/-- NOOP, CASE, STOP, REVERSE and BLANK check no PRM, and of the data they write REV at most,
REVERSE alone. -/
theorem exec_flow_data {i : Instr} {s t : State}
    (hi : i.opcode ∈ ([0x0, 0x8, 0x9, 0xA, 0xC] : List (BitVec 4))) (h : exec i s = .next t) :
    paramOk i = true ∧ ∃ b, SameData { s with rev := b } t ∧ (i.opcode ≠ 0xC → b = s.rev) := by
  cases i with
  | blank | noop | caseSign | stop =>
    cases h
    exact ⟨rfl, s.rev, s.conclude_sameData _, fun _ => rfl⟩
  | reverse =>
    cases h
    exact ⟨rfl, !s.rev, s.toggleRev.conclude_sameData _, fun hne => absurd rfl hne⟩
  | load | store | input | output | add | sub | mul | imm => simp [Instr.opcode] at hi

theorem Instr.eq_stop_of_opcode {i : Instr} (h : i.opcode = 0xA) : ∃ a p, i = .stop a p := by
  cases i with
  | stop a p => exact ⟨a, p, rfl⟩
  | _ => simp [Instr.opcode] at h

/-- BLANK and CASE always move (R151, R154). -/
theorem exec_eq_move_of_opcode {i : Instr} (h : i.opcode = 0x0 ∨ i.opcode = 0x9) (s : State) :
    ∃ d, exec i s = .next (s.move d) := by
  cases i with
  | blank | caseSign => exact ⟨_, rfl⟩
  | _ => simp [Instr.opcode] at h

/-- Settles O48: the data by `exec_flow_data`, RUNSTATE and CAUSE by the ending each opcode has. -/
theorem flowInstructionsFrame : Obligations.FlowInstructionsFrame := by
  intro s t i hi hexec
  obtain ⟨hparam, b, hdata, hb⟩ := exec_flow_data hi hexec
  refine ⟨hdata.acc, fun x => by rw [hdata.regs], hdata.trace, fun c => by rw [hdata.grid],
    hdata.grid, hdata.policy, hdata.env, fun hne => hdata.rev.trans (hb hne), fun hstop => ?_,
    fun hmove => ?_, fun hchanged => ?_⟩
  · obtain ⟨a, p, rfl⟩ := Instr.eq_stop_of_opcode hstop
    cases hexec
    exact ⟨rfl, rfl, rfl⟩
  · obtain ⟨d, hd⟩ := exec_eq_move_of_opcode hmove s
    cases hd.symm.trans hexec
    exact ⟨rfl, rfl⟩
  · refine or_iff_not_imp_left.mpr fun hstop => ?_
    have hcases := paramOk_or_arrow_of_control_changed hexec hstop hchanged
    exact hcases.resolve_left (by simp [hparam])

end Sys2Proof.Machine
end

