-- ==== Sys2Proof/Proofs/Ports.lean ====
section
/-! PROOF. INPUT, OUTPUT and the trace: an answer, a wait and a failure (spec R130 to R136). -/

namespace Sys2Proof.Machine

/-! ### What the environment does with the next request -/

section
variable {s : State}

theorem State.inputReply_of_cons {r : InputReply} {rest : List InputReply}
    (h : s.env.inputs = r :: rest) : s.inputReply = r := by
  simp [State.inputReply, h]

theorem State.inputReply_of_nil (h : s.env.inputs = []) :
    s.inputReply = .answer (Config.inputDraw s.env.draws) := by
  simp [State.inputReply, h]

theorem State.outputReply_of_cons {r : OutputReply} {rest : List OutputReply}
    (h : s.env.outputs = r :: rest) : s.outputReply = r := by
  simp [State.outputReply, h]

theorem State.outputReply_of_nil (h : s.env.outputs = []) : s.outputReply = .accept := by
  simp [State.outputReply, h]

end

/-! ### The instructions -/

theorem exec_input_of_failure {p : Byte} {n : Port} {s : State} (a : Arrow)
    (hp : digit p = some n) (h : s.inputReply = .failure) :
    exec (.input a p) s = .refused .environmentFailed :=
  (withDigit_of_some hp).trans (by simp [h])

theorem exec_output_of_failure {p : Byte} {n : Port} {s : State} (a : Arrow)
    (hp : digit p = some n) (h : s.outputReply = .failure) :
    exec (.output a p) s = .refused .environmentFailed :=
  (withDigit_of_some hp).trans (by simp [h])

theorem exec_input_of_never {p : Byte} {n : Port} {s : State} (a : Arrow)
    (hp : digit p = some n) (h : s.inputReply = .never) : exec (.input a p) s = .next s :=
  (withDigit_of_some hp).trans (by simp [h])

theorem exec_output_of_never {p : Byte} {n : Port} {s : State} (a : Arrow)
    (hp : digit p = some n) (h : s.outputReply = .never) : exec (.output a p) s = .next s :=
  (withDigit_of_some hp).trans (by simp [h])

/-- An answered INPUT ends with its arrow on the state that took the answer. -/
theorem exec_input_of_answer {p : Byte} {n : Port} {s : State} {v : Word} (a : Arrow)
    (hp : digit p = some n) (h : s.inputReply = .answer v) :
    ∃ t, exec (.input a p) s = .next t ∧ ArrowEnding a ((s.recordInput n v).setAcc v) t :=
  ⟨_, exec_of_effect ⟨n, v, hp, h, rfl⟩, State.conclude_ending _ a⟩

/-- An accepted OUTPUT ends with its arrow on the state that made the delivery. -/
theorem exec_output_of_accept {p : Byte} {n : Port} {s : State} (a : Arrow)
    (hp : digit p = some n) (h : s.outputReply = .accept) :
    ∃ t, exec (.output a p) s = .next t ∧ ArrowEnding a (s.recordOutput n s.acc) t :=
  ⟨_, exec_of_effect ⟨n, hp, h, rfl⟩, State.conclude_ending _ a⟩

/-- Settles O9, by the reply at the head of the list. -/
theorem inputAnswersIntoAccumulator : Obligations.InputAnswersIntoAccumulator := by
  intro s a p
  refine ⟨fun n hp => ?_, fun hp => withDigit_faults s hp⟩
  have hn : digit p = some n := digit_eq_some_iff.mpr hp
  refine ⟨fun v rest hreply => ?_, fun hreply => ?_,
    fun rest hreply => exec_input_of_never a hn (State.inputReply_of_cons hreply)⟩
  · simpa [State.recordInput, State.setAcc, hreply] using
      exec_input_of_answer a hn (State.inputReply_of_cons hreply)
  · refine ⟨Config.inputDraw s.env.draws, ?_⟩
    simpa [State.recordInput, State.setAcc, hreply] using
      exec_input_of_answer a hn (State.inputReply_of_nil hreply)

/-- Settles O10, by the reply at the head of the list. -/
theorem outputDeliversAccumulator : Obligations.OutputDeliversAccumulator := by
  intro s a p
  refine ⟨fun n hp => ?_, fun hp => withDigit_faults s hp⟩
  have hn : digit p = some n := digit_eq_some_iff.mpr hp
  refine ⟨fun rest hreply => ?_, fun hreply => ?_,
    fun rest hreply => exec_output_of_never a hn (State.outputReply_of_cons hreply)⟩
  · simpa [State.recordOutput, hreply] using
      exec_output_of_accept a hn (State.outputReply_of_cons hreply)
  · have htail : s.env.outputs.tail = s.env.outputs := by rw [hreply]; rfl
    simpa [State.recordOutput, htail] using
      exec_output_of_accept a hn (State.outputReply_of_nil hreply)

theorem exists_digit_of_range {p : Byte} (hlow : 0x30 ≤ p.toNat) (hhigh : p.toNat ≤ 0x39) :
    ∃ n, digit p = some n :=
  Option.ne_none_iff_exists'.mp fun h => by
    have := digit_eq_none_iff.mp h
    omega

/-- Settles O31: the failure at the head of the list is what the request meets. -/
theorem failingEnvironmentIsRefused : Obligations.FailingEnvironmentIsRefused := by
  intro s a p hlow hhigh
  obtain ⟨n, hn⟩ := exists_digit_of_range hlow hhigh
  exact ⟨fun rest h => exec_input_of_failure a hn (State.inputReply_of_cons h),
    fun rest h => exec_output_of_failure a hn (State.outputReply_of_cons h)⟩

/-! ### The trace -/

theorem Instr.eq_input_of_opcode {i : Instr} (h : i.opcode = 0x3) : ∃ a p, i = .input a p := by
  cases i with
  | input a p => exact ⟨a, p, rfl⟩
  | _ => simp [Instr.opcode] at h

theorem Instr.eq_output_of_opcode {i : Instr} (h : i.opcode = 0x4) : ∃ a p, i = .output a p := by
  cases i with
  | output a p => exact ⟨a, p, rfl⟩
  | _ => simp [Instr.opcode] at h

/-- `e` has the event of `i`'s completed request to port `n`, begun in `s` (R135). -/
def RecordsRequest (i : Instr) (n : Port) (s e : State) : Prop :=
  (i.opcode = 0x3 ∧ e.trace = s.trace ++ [.received n e.acc]) ∨
    (i.opcode = 0x4 ∧ e.trace = s.trace ++ [.delivered n s.acc] ∧ e.acc = s.acc)

theorem RecordsRequest.of_sameData {i : Instr} {n : Port} {s e t : State}
    (h : RecordsRequest i n s e) (hdata : SameData e t) : RecordsRequest i n s t := by
  rwa [RecordsRequest, hdata.trace, hdata.acc]

theorem Effect.trace_cases {i : Instr} {s e : State} (h : Effect i s e) :
    (i.opcode ≠ 0x3 ∧ i.opcode ≠ 0x4 ∧ e.trace = s.trace) ∨
      ∃ n, digit i.param = some n ∧ RecordsRequest i n s e := by
  cases i with
  | input a p =>
    obtain ⟨n, v, hn, -, rfl⟩ := h
    exact .inr ⟨n, hn, .inl ⟨rfl, rfl⟩⟩
  | output a p =>
    obtain ⟨n, hn, -, rfl⟩ := h
    exact .inr ⟨n, hn, .inr ⟨rfl, rfl, rfl⟩⟩
  | blank | noop | caseSign | stop | reverse =>
    cases h
    exact .inl ⟨by simp [Instr.opcode], by simp [Instr.opcode], rfl⟩
  | load | store | add | sub | mul | imm =>
    obtain ⟨x, -, rfl⟩ := h
    exact .inl ⟨by simp [Instr.opcode], by simp [Instr.opcode], rfl⟩

theorem State.current_eq_some_iff {s : State} {i : Instr} :
    s.current = some i ↔ ∃ w, s.fetch = some w ∧ decode w = .ok i := by
  unfold State.current
  cases s.fetch with
  | none => simp
  | some w => cases hdecode : decode w <;> simp [hdecode]

theorem step_of_current {s : State} {i : Instr} (hrun : s.runState = .running)
    (hcur : s.current = some i) : step s = exec i s := by
  obtain ⟨w, hfetch, hdecode⟩ := State.current_eq_some_iff.mp hcur
  exact step_of_decode_ok hrun hfetch hdecode

theorem paramOk_of_port_opcode {i : Instr} (hopc : i.opcode = 0x3 ∨ i.opcode = 0x4) :
    paramOk i = (digit i.param).isSome := by
  cases i with
  | input | output => rfl
  | _ => simp [Instr.opcode] at hopc

/-- A port instruction on a good param that does not wait records its request, however it ends. -/
theorem exec_records_request {i : Instr} {n : Port} {s t : State}
    (hopc : i.opcode = 0x3 ∨ i.opcode = 0x4) (hn : digit i.param = some n)
    (hwait : ¬ Waits i s) (hexec : exec i s = .next t) : RecordsRequest i n s t := by
  obtain ⟨hparam, -⟩ | ⟨-, hwaits, -⟩ | ⟨-, e, heff, rfl⟩ := exec_cases hexec
  · simp [paramOk_of_port_opcode hopc, hn] at hparam
  · exact absurd hwaits hwait
  obtain ⟨hin, hout, -⟩ | ⟨m, hm, hrec⟩ := heff.trace_cases
  · exact (hopc.elim hin hout).elim
  · cases hn.symm.trans hm
    exact hrec.of_sameData (e.conclude_sameData _)

/-- Settles O37: the ending of a step leaves the trace, so an event is that of the execute phase,
and the execute phase of a port instruction has one. -/
theorem traceRecordsExactlyThePortRequests :
    Obligations.TraceRecordsExactlyThePortRequests := by
  intro s t hstep
  refine ⟨fun hne => ?_, fun i n hrun hcur hp hwait => ?_⟩
  · obtain ⟨e, hdata, rfl | ⟨i, hcur, heff⟩⟩ := step_data_cases hstep
    · exact absurd hdata.trace hne
    obtain ⟨-, -, htrace⟩ | ⟨n, hn, hrec⟩ := heff.trace_cases
    · exact absurd (hdata.trace.trans htrace) hne
    · exact ⟨i, n, hcur, digit_eq_some_iff.mp hn, hrec.of_sameData hdata⟩
  · have hn : digit i.param = some n := digit_eq_some_iff.mpr hp
    have hexec : exec i s = .next t := (step_of_current hrun hcur).symm.trans hstep
    have hrec (hopc : i.opcode = 0x3 ∨ i.opcode = 0x4) : RecordsRequest i n s t :=
      exec_records_request hopc hn
        (fun h => hwait (waiting_of_waits hcur (by simp [paramOk_of_port_opcode hopc, hn]) h)) hexec
    exact ⟨fun hopc => by simpa [RecordsRequest, hopc] using hrec (.inl hopc),
      fun hopc => by simpa [RecordsRequest, hopc] using hrec (.inr hopc)⟩

end Sys2Proof.Machine
end

