-- ==== Sys2Proof/Proofs/Progress.lean ====
section
/-! PROOF. When a step answers, waits or changes nothing (spec R100 to R102, R115, R134, R254, R256,
R258). -/

namespace Sys2Proof.Machine

/-- Settles O25, by `step_of_decode_ok`. -/
theorem stepRunsDecodedInstruction : Obligations.StepRunsDecodedInstruction :=
  fun _ _ _ hrun hfetch hdecode => step_of_decode_ok hrun hfetch hdecode

/-! ### Stopped and waiting blocks -/

theorem step_of_not_running {s : State} (h : s.runState ≠ .running) : step s = .next s := by
  unfold step
  cases hs : s.runState with
  | running => exact absurd hs h
  | halted | faulted => rfl

/-- Settles O33: a state whose step answers itself is the only one its runs reach. -/
theorem stoppedBlockStaysAsItIs : Obligations.StoppedBlockStaysAsItIs :=
  fun _ hstopped => ⟨step_of_not_running hstopped,
    fun _ hruns => Runs.eq_of_step_self (step_of_not_running hstopped) hruns⟩

theorem exec_of_waits {i : Instr} {s : State} {n : Port} (hn : digit i.param = some n)
    (h : Waits i s) : exec i s = .next s := by
  obtain ⟨hopc, hreply⟩ | ⟨hopc, hreply⟩ := h
  · obtain ⟨a, p, rfl⟩ := Instr.eq_input_of_opcode hopc
    exact exec_input_of_never a hn hreply
  · obtain ⟨a, p, rfl⟩ := Instr.eq_output_of_opcode hopc
    exact exec_output_of_never a hn hreply

theorem step_of_waiting {s : State} (hrun : s.runState = .running) (h : s.Waiting) :
    step s = .next s := by
  obtain ⟨i, hcur, hlow, hhigh, hreply⟩ := h
  rw [← State.inputReply_eq_never_iff, ← State.outputReply_eq_never_iff] at hreply
  obtain ⟨n, hn⟩ := exists_digit_of_range hlow hhigh
  exact (step_of_current hrun hcur).trans (exec_of_waits hn hreply)

/-- Settles O32: a waiting block's step answers itself. -/
theorem unansweredRequestWaitsForEver : Obligations.UnansweredRequestWaitsForEver := by
  intro s i hrun hcur hlow hhigh hreply
  have hstep : step s = .next s := step_of_waiting hrun ⟨i, hcur, hlow, hhigh, hreply⟩
  exact ⟨hstep, State.infinite_of_step_self hrun hstep,
    fun _ hruns => Runs.eq_of_step_self hstep hruns⟩

/-! ### Loaded blocks -/

theorem withReg_answers (p : Byte) (s : State) (f : RegIdx → State) :
    ∃ t, withReg p s (fun x => .next (f x)) = .next t := by
  unfold withReg
  split <;> exact ⟨_, rfl⟩

/-- An instruction answers a next state, or it is refused for a failing environment. -/
theorem exec_answers_or_fails (i : Instr) (s : State) :
    (∃ t, exec i s = .next t) ∨
    (exec i s = .refused .environmentFailed ∧
      (s.inputReply = .failure ∨ s.outputReply = .failure)) := by
  cases i with
  | blank | noop | caseSign | stop | reverse => exact .inl ⟨_, rfl⟩
  | load a p | store a p | add a p | sub a p | mul a p => exact .inl (withReg_answers p s _)
  | imm a p =>
    cases hp : digit p with
    | none => exact .inl ⟨_, withDigit_of_none hp⟩
    | some k => exact .inl ⟨_, withDigit_of_some hp⟩
  | input a p =>
    cases hp : digit p with
    | none => exact .inl ⟨_, withDigit_of_none hp⟩
    | some n =>
      cases hreply : s.inputReply with
      | answer v => exact .inl ((exec_input_of_answer a hp hreply).imp fun _ => And.left)
      | never => exact .inl ⟨s, exec_input_of_never a hp hreply⟩
      | failure => exact .inr ⟨exec_input_of_failure a hp hreply, .inl rfl⟩
  | output a p =>
    cases hp : digit p with
    | none => exact .inl ⟨_, withDigit_of_none hp⟩
    | some n =>
      cases hreply : s.outputReply with
      | accept => exact .inl ((exec_output_of_accept a hp hreply).imp fun _ => And.left)
      | never => exact .inl ⟨s, exec_output_of_never a hp hreply⟩
      | failure => exact .inr ⟨exec_output_of_failure a hp hreply, .inr rfl⟩

theorem State.Loaded.fetch_isSome {s : State} (h : s.Loaded) : ∃ w, s.fetch = some w := by
  obtain ⟨hload, hrow, hcol⟩ := h
  obtain ⟨-, w, -, -, hcell⟩ := Grid.cell_isSome (Grid.loadOk_rectangular hload) hrow hcol
  exact ⟨w, hcell⟩

theorem State.Loaded.step_answers_or_fails {s : State} (h : s.Loaded) :
    (∃ t, step s = .next t) ∨
    (step s = .refused .environmentFailed ∧
      (s.inputReply = .failure ∨ s.outputReply = .failure)) := by
  by_cases hrun : s.runState = .running
  · obtain ⟨w, hfetch⟩ := h.fetch_isSome
    cases hdecode : decode w with
    | error err => exact .inl ⟨_, step_of_decode_error hrun hfetch hdecode⟩
    | ok i =>
      rw [step_of_decode_ok hrun hfetch hdecode]
      exact exec_answers_or_fails i s
  · exact .inl ⟨s, step_of_not_running hrun⟩

/-- Settles O28: there is a cell at the IP, and from there a step answers or is refused. -/
theorem fetchAlwaysSucceeds : Obligations.FetchAlwaysSucceeds := by
  refine fun s hload => ⟨hload.fetch_isSome, fun r hfault => ?_⟩
  obtain ⟨t, hnext⟩ | ⟨hrefused, -⟩ := hload.step_answers_or_fails
  · cases hfault.symm.trans hnext
  · cases hfault.symm.trans hrefused

theorem State.failure_mem_inputs {s : State} (h : s.inputReply = .failure) :
    .failure ∈ s.env.inputs := by
  cases hin : s.env.inputs with
  | nil => simp [State.inputReply_of_nil hin] at h
  | cons r rest => simp [← h, State.inputReply_of_cons hin]

theorem State.failure_mem_outputs {s : State} (h : s.outputReply = .failure) :
    .failure ∈ s.env.outputs := by
  cases hout : s.env.outputs with
  | nil => simp [State.outputReply_of_nil hout] at h
  | cons r rest => simp [← h, State.outputReply_of_cons hout]

/-- Settles O29: a refusal needs a listed failure. -/
theorem loadedBlockAlwaysSteps : Obligations.LoadedBlockAlwaysSteps := by
  intro s hload hin hout
  obtain hnext | ⟨-, hfail | hfail⟩ := hload.step_answers_or_fails
  · exact hnext
  · exact absurd (State.failure_mem_inputs hfail) hin
  · exact absurd (State.failure_mem_outputs hfail) hout

/-! ### Blocks the host supplied with an obliging environment -/

theorem Env.Obliging.not_failure {e : Env} (h : e.Obliging) :
    .failure ∉ e.inputs ∧ .failure ∉ e.outputs := by
  obtain ⟨hin, hout⟩ := h
  exact ⟨fun hmem => (hin _ hmem).elim nofun, fun hmem => absurd (hout _ hmem) nofun⟩

theorem State.not_waiting_of_obliging {s : State} (h : s.env.Obliging) : ¬ s.Waiting := by
  obtain ⟨hin, hout⟩ := h
  rintro ⟨i, -, -, -, ⟨-, hhead⟩ | ⟨-, hhead⟩⟩
  · exact (hin _ (List.mem_of_head? hhead)).elim nofun
  · exact absurd (hout _ (List.mem_of_head? hhead)) nofun

/-- An execute phase uses up replies and lists none. -/
theorem Effect.env_obliging {i : Instr} {s e : State} (h : Effect i s e) (hs : s.env.Obliging) :
    e.env.Obliging := by
  obtain ⟨hin, hout⟩ := hs
  cases i with
  | blank | noop | caseSign | stop | reverse => cases h; exact ⟨hin, hout⟩
  | load | store | add | sub | mul | imm => obtain ⟨x, -, rfl⟩ := h; exact ⟨hin, hout⟩
  | input =>
    obtain ⟨n, v, -, -, rfl⟩ := h
    exact ⟨fun r hr => hin r (List.mem_of_mem_tail hr), hout⟩
  | output =>
    obtain ⟨n, -, -, rfl⟩ := h
    exact ⟨hin, fun r hr => hout r (List.mem_of_mem_tail hr)⟩

theorem step_env_obliging {s t : State} (h : step s = .next t) (hs : s.env.Obliging) :
    t.env.Obliging := by
  obtain ⟨e, hdata, rfl | ⟨i, -, heff⟩⟩ := step_data_cases h
  · rwa [hdata.env]
  · rw [hdata.env]
    exact heff.env_obliging hs

/-- Every ending of a step but a fault counts (R118). -/
theorem Ends.steps {e t : State} (h : Ends e t) :
    (t.steps = e.steps + 1 ∧ (t.runState = e.runState ∨ t.runState = .halted)) ∨
      (t.steps = e.steps ∧ t.runState = .faulted) := by
  obtain ⟨d, rfl⟩ | rfl | ⟨c, -, rfl⟩ := h
  · exact .inl ⟨rfl, .inl rfl⟩
  · exact .inl ⟨rfl, .inr rfl⟩
  · exact .inr ⟨rfl, rfl⟩

/-- Settles O30: a step that answers and does not wait ends in one of the three endings. -/
theorem bootedBlockNeverWaits : Obligations.BootedBlockNeverWaits := by
  intro s hload henv hrun
  obtain ⟨hin, hout⟩ := henv.not_failure
  obtain ⟨t, hstep⟩ := loadedBlockAlwaysSteps s hload hin hout
  refine ⟨t, hstep, step_env_obliging hstep henv, ?_⟩
  obtain ⟨-, hstopped | hwait⟩ | ⟨-, e, hsame, hends⟩ := step_ending_cases hstep
  · exact absurd hrun hstopped
  · exact absurd hwait (State.not_waiting_of_obliging henv)
  · exact hends.steps.imp (fun h => h.1.trans (by rw [hsame.steps])) And.right

end Sys2Proof.Machine
end

