-- ==== Sys2Proof/Proofs/Noninterference.lean ====
section
/-! PROOF. What no instruction reads: two states related by a relation that the named operations
keep run alike, and STEPS, LASTDIR and REV are three such relations (spec R27, R28, R33, R118). -/

namespace Sys2Proof.Machine

/-- Related states look alike to the execute phases and to the policy on missing arrows, and every
named operation leads to related states. -/
structure KeptByOperations (R : State → State → Prop) : Prop where
  acc {s s' : State} : R s s' → s'.acc = s.acc
  regs {s s' : State} : R s s' → s'.regs = s.regs
  env {s s' : State} : R s s' → s'.env = s.env
  policy {s s' : State} : R s s' → s'.policy = s.policy
  setAcc {s s' : State} : R s s' → ∀ v, R (s.setAcc v) (s'.setAcc v)
  setReg {s s' : State} : R s s' → ∀ x v, R (s.setReg x v) (s'.setReg x v)
  toggleRev {s s' : State} : R s s' → R s.toggleRev s'.toggleRev
  recordInput {s s' : State} : R s s' → ∀ n v, R (s.recordInput n v) (s'.recordInput n v)
  recordOutput {s s' : State} : R s s' → ∀ n v, R (s.recordOutput n v) (s'.recordOutput n v)
  move {s s' : State} : R s s' → ∀ d, R (s.move d) (s'.move d)
  halt {s s' : State} : R s s' → R s.halt s'.halt
  takeFault {s s' : State} : R s s' → ∀ c, R (s.takeFault c) (s'.takeFault c)

section
variable {R : State → State → Prop} (hR : KeptByOperations R) {i : Instr} {s s' : State}
include hR

theorem KeptByOperations.reg (h : R s s') (x : RegIdx) : s'.reg x = s.reg x := by
  rw [State.reg, hR.regs h, State.reg]

theorem KeptByOperations.inputReply (h : R s s') : s'.inputReply = s.inputReply := by
  rw [State.inputReply, hR.env h, State.inputReply]

theorem KeptByOperations.outputReply (h : R s s') : s'.outputReply = s.outputReply := by
  rw [State.outputReply, hR.env h, State.outputReply]

theorem KeptByOperations.effect (h : R s s') {e : State} (heff : Effect i s e) :
    ∃ e', Effect i s' e' ∧ R e e' := by
  cases i with
  | blank | noop | caseSign | stop => cases heff; exact ⟨s', rfl, h⟩
  | reverse => cases heff; exact ⟨_, rfl, hR.toggleRev h⟩
  | load a p =>
    obtain ⟨x, hx, rfl⟩ := heff
    exact ⟨_, ⟨x, hx, rfl⟩, hR.reg h x ▸ hR.setAcc h _⟩
  | store a p =>
    obtain ⟨x, hx, rfl⟩ := heff
    exact ⟨_, ⟨x, hx, rfl⟩, hR.acc h ▸ hR.setReg h x _⟩
  | add a p | sub a p | mul a p =>
    obtain ⟨x, hx, rfl⟩ := heff
    refine ⟨_, ⟨x, hx, rfl⟩, ?_⟩
    rw [hR.acc h, hR.reg h]
    exact hR.setAcc h _
  | imm a p =>
    obtain ⟨k, hk, rfl⟩ := heff
    exact ⟨_, ⟨k, hk, rfl⟩, hR.setAcc h _⟩
  | input a p =>
    obtain ⟨n, v, hn, hreply, rfl⟩ := heff
    exact ⟨_, ⟨n, v, hn, (hR.inputReply h).trans hreply, rfl⟩,
      hR.setAcc (hR.recordInput h n v) v⟩
  | output a p =>
    obtain ⟨n, hn, hreply, rfl⟩ := heff
    refine ⟨_, ⟨n, hn, (hR.outputReply h).trans hreply, rfl⟩, ?_⟩
    rw [hR.acc h]
    exact hR.recordOutput h n _

theorem KeptByOperations.waits (h : R s s') (hwaits : Waits i s) : Waits i s' := by
  rwa [Waits, hR.inputReply h, hR.outputReply h]

theorem KeptByOperations.conclude (h : R s s') (o : ExecOutcome) :
    R (s.conclude o) (s'.conclude o) := by
  cases o with
  | move d => exact hR.move h d
  | halt => exact hR.halt h
  | malformed => exact hR.takeFault h _
  | noArrow =>
    simp only [State.conclude, State.noArrow, hR.policy h]
    split
    · exact hR.takeFault h _
    · exact hR.halt h

end

theorem exec_of_not_paramOk {i : Instr} (s : State) (h : paramOk i = false) :
    exec i s = .next (s.takeFault .invalidParam) := by
  unfold paramOk at h
  cases hform : paramForm i with
  | reg => exact exec_of_regIdx_eq_none s hform (by simpa [hform] using h)
  | digit => exact exec_of_digit_eq_none s hform (by simpa [hform] using h)
  | ignored => simp [hform] at h

theorem exec_of_waits_of_paramOk {i : Instr} {s : State} (hparam : paramOk i = true)
    (h : Waits i s) : exec i s = .next s := by
  rw [paramOk_of_port_opcode (h.imp And.left And.left)] at hparam
  obtain ⟨n, hn⟩ := Option.isSome_iff_exists.mp hparam
  exact exec_of_waits hn h

/-- Related states in which the instruction asks for the same ending lead to related states. -/
theorem KeptByOperations.exec {R : State → State → Prop} (hR : KeptByOperations R) {i : Instr}
    {s s' t : State} (h : R s s') (hout : outcomeOf i s' = outcomeOf i s)
    (hexec : exec i s = .next t) : ∃ t', exec i s' = .next t' ∧ R t t' := by
  obtain ⟨hparam, rfl⟩ | ⟨hparam, hwaits, rfl⟩ | ⟨-, e, heff, rfl⟩ := exec_cases hexec
  · exact ⟨_, exec_of_not_paramOk s' hparam, hR.takeFault h _⟩
  · exact ⟨s', exec_of_waits_of_paramOk hparam (hR.waits h hwaits), h⟩
  · obtain ⟨e', heff', he⟩ := hR.effect h heff
    exact ⟨_, exec_of_effect heff', hout ▸ hR.conclude he _⟩

theorem outcomeOf_congr {i : Instr} {s s' : State} (hlast : i.opcode = 0x0 → s'.lastDir = s.lastDir)
    (hacc : s'.acc = s.acc) : outcomeOf i s' = outcomeOf i s := by
  cases i with
  | blank => rw [outcomeOf, hlast rfl, outcomeOf]
  | caseSign => rw [outcomeOf, hacc, outcomeOf]
  | _ => rfl

/-! ### STEPS -/

/-- `s'` is `s` but for STEPS. -/
def EqUpToSteps (s s' : State) : Prop := ∃ n, s' = { s with steps := n }

theorem eqUpToSteps_kept : KeptByOperations EqUpToSteps := by
  constructor <;> rintro s _ ⟨n, rfl⟩
  case acc | regs | env | policy => rfl
  all_goals intros; exact ⟨_, rfl⟩

theorem State.resetWith_steps (s : State) (g : Grid) (inputs : List InputReply)
    (outputs : List OutputReply) : (s.resetWith g inputs outputs).steps = 0 := by
  obtain ⟨-, -, -, -, -, hsteps, -⟩ := resetSetsEveryResetValue s g inputs outputs
  exact hsteps

/-- Settles O39: `EqUpToSteps` says that no instruction reads STEPS, and the endings of a step say
what counts. -/
theorem stepsCountsMovesAndHalts : Obligations.StepsCountsMovesAndHalts := by
  refine ⟨State.resetWith_steps, fun s t i n hexec => ?_, fun s t hrun hstep => ?_⟩
  · obtain ⟨t', hexec', m, rfl⟩ := eqUpToSteps_kept.exec (s' := { s with steps := n })
      ⟨n, rfl⟩ (outcomeOf_congr (fun _ => rfl) rfl) hexec
    exact ⟨m, hexec'⟩
  · have hwait (h : s.Waiting) : t = s :=
      Host.Outcome.next.inj (hstep.symm.trans (step_of_waiting hrun h))
    obtain ⟨rfl, hnot⟩ | ⟨-, e, hsame, hends⟩ := step_ending_cases hstep
    · exact ⟨fun _ => rfl, hwait, fun _ hnowait => (hnot.elim (absurd hrun) hnowait).elim⟩
    rw [← hsame.steps]
    obtain ⟨hsteps, hstate⟩ | ⟨hsteps, hfault⟩ := hends.steps
    · have hne : t.runState ≠ .faulted := by
        obtain h | h := hstate <;> simp [h, hsame.runState, hrun]
      exact ⟨fun h => absurd h hne, hwait, fun _ _ => hsteps⟩
    · exact ⟨fun _ => hsteps, hwait, fun h => absurd hfault h⟩

/-! ### LASTDIR -/

/-- `s'` is `s` but for LASTDIR. -/
def EqUpToLastDir (s s' : State) : Prop := ∃ d, s' = { s with lastDir := d }

theorem eqUpToLastDir_kept : KeptByOperations EqUpToLastDir := by
  constructor <;> rintro s _ ⟨d, rfl⟩
  case acc | regs | env | policy => rfl
  all_goals intros; exact ⟨_, rfl⟩

/-- Settles O43: only the outcome of BLANK depends on LASTDIR. -/
theorem onlyBlankReadsLastDirection : Obligations.OnlyBlankReadsLastDirection := by
  intro s t i d hblank hexec
  obtain ⟨t', hexec', e, rfl⟩ := eqUpToLastDir_kept.exec (s' := { s with lastDir := d })
    ⟨d, rfl⟩ (outcomeOf_congr (fun hopc => absurd hopc hblank) rfl) hexec
  exact ⟨e, hexec'⟩

/-! ### REV -/

/-- `s'` is `s` but for REV, IP and LASTDIR. -/
def EqUpToSteering (s s' : State) : Prop :=
  ∃ b q d, s' = { s with rev := b, ip := q, lastDir := d }

theorem eqUpToSteering_kept : KeptByOperations EqUpToSteering := by
  constructor <;> rintro s _ ⟨b, q, d, rfl⟩
  case acc | regs | env | policy => rfl
  all_goals intros; exact ⟨_, _, _, rfl⟩

/-- Settles O44: no outcome depends on REV, and a move spreads it to IP and LASTDIR alone. -/
theorem reversalFlagOnlySteersMovement : Obligations.ReversalFlagOnlySteersMovement := by
  intro s t i b hexec
  obtain ⟨t', hexec', c, q, e, rfl⟩ := eqUpToSteering_kept.exec (s' := { s with rev := b })
    ⟨b, s.ip, s.lastDir, rfl⟩ (outcomeOf_congr (fun _ => rfl) rfl) hexec
  exact ⟨c, q, e, hexec'⟩

end Sys2Proof.Machine
end

