-- ==== Sys2Proof/Proofs/Wrap.lean ====
section
/-! PROOF. The wrap as the low bits of the exact result, and the wraps at the edges of the grid
(spec R112, R119, R140). -/

namespace Sys2Proof.Machine

/-! ### Arithmetic -/

/-- The wrap of R12 differs from the exact result by a multiple of 2^64. -/
theorem wrap_eq_ofInt (v : Int) : wrap v = BitVec.ofInt 64 v := by
  apply BitVec.eq_of_toInt_eq
  rw [toInt_wrap, wrapAt, BitVec.toInt_ofInt, Int.bmod_def]
  omega

/-- Settles O19: taking the low bits commutes with sum, difference and product. -/
theorem wrappedResultIsLowBits : Obligations.WrappedResultIsLowBits := by
  intro x y
  simp only [wrap_eq_ofInt]
  refine ⟨?_, ?_, ?_⟩
  · rw [BitVec.ofInt_add, BitVec.ofInt_toInt, BitVec.ofInt_toInt]
  · rw [Int.sub_eq_add_neg, BitVec.ofInt_add, BitVec.ofInt_neg, BitVec.ofInt_toInt,
      BitVec.ofInt_toInt, BitVec.sub_eq_add_neg]
  · rw [BitVec.ofInt_mul, BitVec.ofInt_toInt, BitVec.ofInt_toInt]

/-! ### Edges -/

theorem wrapCoord_zero {x n : Nat} (h : x < n) : wrapCoord x 0 n = x := by
  rw [wrapCoord, Int.add_zero, Int.emod_eq_of_lt (by omega) (by omega), Int.toNat_natCast]

theorem wrapCoord_first {n : Nat} (h : 0 < n) : wrapCoord 0 (-1) n = n - 1 := by
  have hmod : ((0 : Nat) + -1 : Int) % n = n - 1 := by
    rw [← Int.add_emod_right, Int.emod_eq_of_lt (by omega) (by omega)]
    omega
  rw [wrapCoord, hmod]
  omega

theorem wrapCoord_last {n : Nat} (h : 0 < n) : wrapCoord (n - 1) 1 n = 0 := by
  have hsum : ((n - 1 : Nat) + 1 : Int) = n := by omega
  rw [wrapCoord, hsum, Int.emod_self, Int.toNat_zero]

/-- Settles O22: each of the four moves wraps one coordinate and leaves the other. -/
theorem edgesWrapAround : Obligations.EdgesWrapAround := by
  intro g r c hr hc
  have hheight : 0 < g.height := Nat.zero_lt_of_lt hr
  have hwidth : 0 < g.width := Nat.zero_lt_of_lt hc
  simp [Grid.advance, rowDelta, colDelta, wrapCoord_zero hr, wrapCoord_zero hc,
    wrapCoord_first hheight, wrapCoord_first hwidth, wrapCoord_last hheight, wrapCoord_last hwidth]

end Sys2Proof.Machine
end

