-- ==== Sys2Proof/Proofs/Parity.lean ====
section
/-! PROOF. The parity of consecutive REVERSEs (spec R111, R119). -/

namespace Sys2Proof.Machine

theorem rev_of_exec_reverse {a : Arrow} {p : Byte} {s t : State}
    (h : exec (.reverse a p) s = .next t) : t.rev = !s.rev := by
  obtain rfl := Host.Outcome.next.inj ((exec_reverse a p s).symm.trans h)
  exact (s.toggleRev.conclude_sameData _).rev

/-- `k` REVERSEs invert REV `k` times. -/
theorem rev_after_reverses (f : Nat → State) (a : Nat → Arrow) (p : Nat → Byte) :
    ∀ k, (∀ n, n < k → exec (.reverse (a n) (p n)) (f n) = .next (f (n + 1))) →
      (f k).rev = xor (f 0).rev (k % 2 == 1)
  | 0, _ => by simp
  | k + 1, hstep => by
    have ih := rev_after_reverses f a p k fun n hn => hstep n (Nat.lt_succ_of_lt hn)
    rw [rev_of_exec_reverse (hstep k k.lt_succ_self), ih]
    obtain hk | hk := Nat.mod_two_eq_zero_or_one k <;> simp [hk, Nat.add_mod]

/-- Settles O23: the NOOP resolves its arrow with the REV that `rev_after_reverses` gives. -/
theorem reverseParityDecidesMovement : Obligations.ReverseParityDecidesMovement := by
  intro f a p k hstep d q t ht
  obtain rfl := Host.Outcome.next.inj ((exec_noop (.toward d) q (f k)).symm.trans ht)
  rw [← rev_after_reverses f a p k hstep]
  rfl

end Sys2Proof.Machine
end

