-- ==== Sys2Proof/Proofs/HostInterface.lean ====
section
/-! PROOF. The host's commands around a run, and the reset values it finds (spec R250, R251, R255 to
R259). -/

namespace Sys2Proof.Machine

/-- Settles O50: each field of `State.reset` is written as R251 has it. -/
theorem resetStateHoldsResetValues : Obligations.ResetStateHoldsResetValues :=
  ⟨rfl, fun x => by simp [State.reset], rfl, rfl, rfl, rfl, rfl, rfl, rfl⟩

section
variable {b : Session}

theorem Session.inProgress_iff :
    b.inProgress = true ↔ b.runIssued = true ∧ b.core.runState = .running := by
  simp [Session.inProgress]

theorem Session.step_of_idle (h : ¬ b.inProgress = true) : b.step = .next b :=
  if_neg h

theorem Session.step_of_inProgress (h : b.inProgress = true) {t : State}
    (ht : Machine.step b.core = .next t) : b.step = .next { b with core := t } := by
  simp [Session.step, h, ht]

theorem Session.hostRun_of_running (hissued : b.runIssued = false)
    (hrun : b.core.runState = .running) : b.hostRun = some { b with runIssued := true } := by
  simp [Session.hostRun, Session.inProgress, hissued, hrun]

theorem Session.hostRun_of_not_running (h : b.core.runState ≠ .running) : b.hostRun = some b := by
  have hidle : ¬ b.inProgress = true := fun hp => h (Session.inProgress_iff.mp hp).2
  rw [Session.hostRun, if_neg hidle]
  cases hs : b.core.runState with
  | running => exact absurd hs h
  | halted | faulted => rfl

end

/-- Settles O57: no run is in progress in a stopped block. -/
theorem runOfAStoppedBlockChangesNothing : Obligations.RunOfAStoppedBlockChangesNothing := by
  intro b hstopped
  have hrun : b.core.runState ≠ .running := by
    obtain h | h := hstopped <;> simp [h]
  exact ⟨Session.hostRun_of_not_running hrun,
    Session.step_of_idle fun h => hrun (Session.inProgress_iff.mp h).2⟩

/-- Settles O58: every clause by whether a run is in progress. -/
theorem hostActsOnlyBetweenRuns : Obligations.HostActsOnlyBetweenRuns := by
  intro b g inputs outputs
  refine ⟨fun hrun => ?_, fun hidle => ?_, fun ⟨hissued, hrun⟩ => ?_⟩
  · have hp : b.inProgress = true := Session.inProgress_iff.mpr hrun
    exact ⟨if_pos hp, if_pos hp, if_pos hp, fun t => Session.step_of_inProgress hp⟩
  · have hp : ¬ b.inProgress = true := by
      rw [Session.inProgress_iff]
      rintro ⟨hissued, hrun⟩
      simp [hissued, hrun] at hidle
    exact ⟨if_neg hp, if_neg hp, rfl, Session.step_of_idle hp⟩
  · have hp : ({ b with runIssued := true } : Session).inProgress = true :=
      Session.inProgress_iff.mpr ⟨rfl, hrun⟩
    exact ⟨_, Session.hostRun_of_running hissued hrun, rfl, hp,
      fun t => Session.step_of_inProgress hp⟩

end Sys2Proof.Machine
end

