-- ==== Sys2Proof/Proofs/Loader.lean ====
section
/-! PROOF. The grid of a program text: its shape, its arrows and the place of every field (spec R80
to R83, R86). -/

namespace Sys2Proof.Machine

/-! ### Lists of partial results -/

theorem forall₂_of_mapM_eq_some {α β : Type} {f : α → Option β} :
    ∀ {xs : List α} {ys : List β}, xs.mapM f = some ys →
      List.Forall₂ (fun x y => f x = some y) xs ys
  | [], ys, h => by
    cases h
    exact .nil
  | x :: xs, ys, h => by
    simp only [List.mapM_cons, Option.bind_eq_bind, Option.bind_eq_some_iff, Option.pure_def,
      Option.some.injEq] at h
    obtain ⟨y, hy, zs, hzs, rfl⟩ := h
    exact .cons hy (forall₂_of_mapM_eq_some hzs)

theorem exists_getElem?_of_forall₂ {α β : Type} {R : α → β → Prop} {xs : List α} {ys : List β}
    (h : List.Forall₂ R xs ys) {k : Nat} {x : α} (hx : xs[k]? = some x) :
    ∃ y, ys[k]? = some y ∧ R x y := by
  obtain ⟨hk, rfl⟩ := List.getElem?_eq_some_iff.mp hx
  have hk' : k < ys.length := h.length_eq ▸ hk
  exact ⟨ys[k], List.getElem?_eq_getElem hk', h.get hk hk'⟩

theorem exists_mem_of_forall₂ {α β : Type} {R : α → β → Prop} {xs : List α} {ys : List β}
    (h : List.Forall₂ R xs ys) {x : α} (hx : x ∈ xs) : ∃ y ∈ ys, R x y := by
  obtain ⟨k, hk⟩ := List.mem_iff_getElem?.mp hx
  obtain ⟨y, hy, hR⟩ := exists_getElem?_of_forall₂ h hk
  exact ⟨y, List.mem_of_getElem? hy, hR⟩

/-! ### The fields of a line -/

theorem length_of_lineFields : ∀ {line : List Char} {fs : List TextField},
    lineFields line = some fs → line.length = 3 * fs.length
  | [], fs, h => by
    cases h
    rfl
  | o :: p :: a :: rest, fs, h => by
    obtain ⟨gs, hgs, rfl⟩ := Option.map_eq_some_iff.mp h
    have ih := length_of_lineFields hgs
    simp only [List.length_cons]
    omega

/-- Field `k` is made of the characters at `3 k` and the two after it (R80). -/
theorem getElem?_of_lineFields : ∀ {cs : List Char} {fs : List TextField} {k : Nat} {o p a : Char},
    lineFields cs = some fs → cs[3 * k]? = some o → cs[3 * k + 1]? = some p →
      cs[3 * k + 2]? = some a → fs[k]? = some ⟨o, p, a⟩
  | [], fs, k, o, p, a, _, ho, _, _ => by simp at ho
  | o' :: p' :: a' :: rest, fs, 0, o, p, a, h, ho, hp, ha => by
    obtain ⟨gs, -, rfl⟩ := Option.map_eq_some_iff.mp h
    simp_all
  | o' :: p' :: a' :: rest, fs, k + 1, o, p, a, h, ho, hp, ha => by
    obtain ⟨gs, hgs, rfl⟩ := Option.map_eq_some_iff.mp h
    exact getElem?_of_lineFields (k := k) hgs ho hp ha

theorem lineWords_eq_some {chars line : List Char} {ws : List CellWord}
    (h : lineWords chars line = some ws) :
    ∃ fs, lineFields line = some fs ∧
      List.Forall₂ (fun f w => fieldWord chars f = some w) fs ws := by
  obtain ⟨fs, hfs, hws⟩ := Option.bind_eq_some_iff.mp h
  exact ⟨fs, hfs, forall₂_of_mapM_eq_some hws⟩

theorem length_of_lineWords {chars line : List Char} {ws : List CellWord}
    (h : lineWords chars line = some ws) : line.length = 3 * ws.length := by
  obtain ⟨fs, hfs, hws⟩ := lineWords_eq_some h
  rw [← hws.length_eq, length_of_lineFields hfs]

/-! ### Arrows -/

/-- A word's ARW code is one of those R77 allows. -/
def LegalArrow (w : CellWord) : Prop := (arwField w).toNat ≤ 7 ∨ (arwField w).toNat = 15

theorem arrowOfChar_legal {c : Char} {a : BitVec 4} (h : arrowOfChar c = some a) :
    a.toNat ≤ 7 ∨ a.toNat = 15 := by
  unfold arrowOfChar at h
  split at h
  · cases h
    exact .inr rfl
  · split at h
    · next hc =>
      cases h
      rw [BitVec.toNat_ofNat]
      simp only [Char.reduceToNat] at hc ⊢
      omega
    · cases h

theorem fieldWord_legalArrow {chars : List Char} {f : TextField} {w : CellWord}
    (h : fieldWord chars f = some w) : LegalArrow w := by
  obtain ⟨a, ha, rfl⟩ := Option.map_eq_some_iff.mp h
  obtain ⟨-, harw, -⟩ :=
    Laws.EncodeFields.fields_of_append (opcodeOfChar chars f.opcode) a (paramOfChar f.param)
  rw [LegalArrow, harw]
  exact arrowOfChar_legal ha

theorem lineWords_legalArrow {chars line : List Char} {ws : List CellWord}
    (h : lineWords chars line = some ws) {w : CellWord} (hw : w ∈ ws) : LegalArrow w := by
  obtain ⟨fs, -, hws⟩ := lineWords_eq_some h
  obtain ⟨f, -, hf⟩ := exists_mem_of_forall₂ hws.flip hw
  exact fieldWord_legalArrow hf

theorem paddingWord_legalArrow : LegalArrow paddingWord := by
  unfold LegalArrow
  decide

/-! ### Padding -/

section
variable {w k : Nat} {r : List CellWord}

theorem length_padRow (h : r.length ≤ w) : (padRow w r).length = w := by
  simp only [padRow, List.length_append, List.length_replicate]
  omega

theorem mem_padRow {x : CellWord} (h : x ∈ padRow w r) : x ∈ r ∨ x = paddingWord :=
  (List.mem_append.mp h).imp_right List.eq_of_mem_replicate

theorem getElem?_padRow_of_field {x : CellWord} (h : r[k]? = some x) :
    (padRow w r)[k]? = some x := by
  obtain ⟨hk, -⟩ := List.getElem?_eq_some_iff.mp h
  rw [padRow, List.getElem?_append_left hk, h]

theorem getElem?_padRow_of_le (hr : r.length ≤ k) (hk : k < w) :
    (padRow w r)[k]? = some paddingWord := by
  rw [padRow, List.getElem?_append_right hr, List.getElem?_replicate_of_lt (by omega)]

end

/-! ### The grid -/

/-- All that `loadText` makes of a text: the padded rows of its lines, as wide as the widest. -/
theorem loadText_eq_some {chars : List Char} {lines : List (List Char)} {g : Grid}
    (h : loadText chars lines = some g) :
    ∃ rows, List.Forall₂ (fun line ws => lineWords chars line = some ws) lines rows ∧
      g.height = rows.length ∧ g.rows = rows.map (padRow g.width) ∧ 1 ≤ g.height ∧ 1 ≤ g.width ∧
      ∀ ws ∈ rows, ws.length ≤ g.width := by
  obtain ⟨rows, hrows, hgrid⟩ := Option.bind_eq_some_iff.mp h
  have hwidest : ∀ ws ∈ rows, ws.length ≤ (rows.map List.length).foldr max 0 := fun ws hws =>
    List.le_max_of_le (List.mem_map_of_mem hws) le_rfl
  dsimp only at hgrid
  split at hgrid
  · cases hgrid
  · next hpos =>
    cases hgrid
    have hne : rows ≠ [] := by
      rintro rfl
      exact hpos rfl
    exact ⟨rows, forall₂_of_mapM_eq_some hrows, rfl, rfl, List.length_pos_of_ne_nil hne,
      Nat.pos_of_ne_zero hpos, hwidest⟩

/-- Settles O59: every line gives one padded row, and both its words and the padding have legal
arrows. -/
theorem loadedTextPassesShapeChecks : Obligations.LoadedTextPassesShapeChecks := by
  intro chars lines g hload
  obtain ⟨rows, hlines, hheight, hrows, hpos, hwidth, hle⟩ := loadText_eq_some hload
  refine ⟨hheight.trans hlines.length_eq.symm, hpos, hwidth, fun line hline => ?_, ?_, ?_⟩
  · obtain ⟨ws, hws, hwords⟩ := exists_mem_of_forall₂ hlines hline
    have hlen := length_of_lineWords hwords
    have := hle ws hws
    omega
  · refine Grid.rectangular_iff.mpr ⟨by rw [hrows, List.length_map, hheight], fun r hr => ?_⟩
    rw [hrows] at hr
    obtain ⟨ws, hws, rfl⟩ := List.mem_map.mp hr
    exact length_padRow (hle ws hws)
  · refine Grid.arrowsOk_iff.mpr fun r hr w hw => ?_
    rw [hrows] at hr
    obtain ⟨ws, hws, rfl⟩ := List.mem_map.mp hr
    obtain ⟨line, -, hwords⟩ := exists_mem_of_forall₂ hlines.flip hws
    obtain hmem | rfl := mem_padRow hw
    · exact lineWords_legalArrow hwords hmem
    · exact paddingWord_legalArrow

theorem Grid.cell_of_row {g : Grid} {r k : Nat} {row : List CellWord} (hrow : g.rows[r]? = some row)
    (hr : r < g.height) (hk : k < g.width) : g.cell ⟨r, k⟩ = row[k]? := by
  simp [Grid.cell, hr, hk, hrow]

/-- Settles O60: row `r` of the grid is the padded row of line `r`. -/
theorem loadedTextPlacesFieldsAndPadding : Obligations.LoadedTextPlacesFieldsAndPadding := by
  intro chars lines g hload r k row hrow hk
  obtain ⟨rows, hlines, hheight, hrows, -⟩ := loadText_eq_some hload
  obtain ⟨ws, hws, hwords⟩ := exists_getElem?_of_forall₂ hlines hrow
  obtain ⟨hr, -⟩ := List.getElem?_eq_some_iff.mp hws
  have hcell : g.cell ⟨r, k⟩ = (padRow g.width ws)[k]? :=
    Grid.cell_of_row (by rw [hrows, List.getElem?_map, hws]; rfl) (hheight ▸ hr) hk
  rw [hcell]
  refine ⟨fun hshort => ?_, fun o p a ho hp ha => ?_⟩
  · have hlen := length_of_lineWords hwords
    exact getElem?_padRow_of_le (by omega) hk
  · obtain ⟨fs, hfs, hfields⟩ := lineWords_eq_some hwords
    obtain ⟨w, hw, hfield⟩ :=
      exists_getElem?_of_forall₂ hfields (getElem?_of_lineFields hfs ho hp ha)
    exact ⟨w, hfield, getElem?_padRow_of_field hw⟩

end Sys2Proof.Machine
end
